-- ==== Sys2Proof/Word.lean ====
section
/-! DEFINITION. The word types of the VINV core and their plainest arithmetic (spec rules R8, R11, R12). -/

namespace Sys2Proof

/-- One byte of host memory. -/
abbrev Byte := BitVec 8

/-- One 32-bit register, host address or descriptor word (R8). -/
abbrev Word := BitVec 32

/-- `clamp(v, lo, hi) = min(max(v, lo), hi)` on exact integers (R12). -/
def clamp (v lo hi : Int) : Int := min (max v lo) hi

end Sys2Proof
end

