-- ==== Sys2Proof/Machine/Float32.lean ====
section
/-! DEFINITION. The binary32 values and primitives of the finalization (R13, R97, R170). Every finite binary32 value
is an integer multiple of 2^-149, so a finite value is held as that integer, exactly; the two zeros are one value, as
R13's comparisons and R177's truncation have them (DEDUCED, log entry 16). -/

namespace Sys2Proof.Machine

/-- A binary32 value other than NaN, which never arises (R183). -/
inductive F32 where
  /-- The value `k * 2^-149`. -/
  | fin (k : Int)
  /-- An infinity, negative or positive. -/
  | inf (neg : Bool)
  deriving DecidableEq, Repr

/-- One in units of 2^-149. -/
def f32One : Nat := 2 ^ 149

/-- The finite value of a binary32 word in units of 2^-149 (R97): fraction times 2^0 for exponent 0, and
(2^23 + fraction) times 2^(exponent - 1) otherwise. Exponent 255 is refused at START (R29, R233; DEDUCED, log entry 17). -/
def f32OfWord (w : Word) : Int :=
  let e := (w.extractLsb' 23 8).toNat
  let f := (w.extractLsb' 0 23).toNat
  let k : Nat := if e = 0 then f else (2 ^ 23 + f) * 2 ^ (e - 1)
  if w[31] then -k else k

/-- `f32_of_int(n)`, exact for |n| < 2^24 (R13), in units of 2^-149. -/
def f32OfInt (n : Int) : Int := n * f32One

/-- A quotient rounded to nearest, ties to even. -/
def divNearestEven (n d : Nat) : Nat :=
  let q := n / d
  let r := n % d
  if d < 2 * r ∨ (2 * r = d ∧ q % 2 = 1) then q + 1 else q

/-- How many low bits of a magnitude in units of 2^-149 a 24-bit significand drops, for an exact magnitude `n` in
units of 2^-298. -/
def f32Drop (n : Nat) : Nat := Nat.log2 n + 1 - (149 + 24)

/-- The magnitude of a product in units of 2^-149, rounded to a 24-bit significand (or to 2^-149 for a subnormal),
for an exact magnitude `n` in units of 2^-298. -/
def f32RoundMag (n : Nat) : Nat := divNearestEven n (2 ^ (149 + f32Drop n)) * 2 ^ f32Drop n

/-- The first magnitude past the largest finite value, in units of 2^-149: 2^128. -/
def f32Overflow : Nat := 2 ^ 128 * f32One

/-- `f32_mul(a, b)` of two finite values: one rounding to nearest even, overflow to infinity (R13). -/
def f32Mul (a b : Int) : F32 :=
  let n := f32RoundMag (a * b).natAbs
  let neg := decide (a * b < 0)
  if f32Overflow ≤ n then .inf neg else .fin (if neg then -(n : Int) else n)

end Sys2Proof.Machine
end

