-- ==== Sys2Proof/Syntax.lean ====
section
/-! DEFINITION. The commands of the VINV core: one constructor per row of spec/opcode_table.json (R92).
A command word has no operand fields (R93): its planes are named by the fixed descriptor slots D0..D3 and its
parameters by the configuration registers. -/

namespace Sys2Proof

/-- The seven commands of the opcode map (R92). -/
inductive Instr where
  /-- OP 0x0, R206. -/
  | nop
  /-- OP 0x1, R124. -/
  | blur3
  /-- OP 0x2, R126. -/
  | blur5
  /-- OP 0x3, R141. -/
  | resid
  /-- OP 0x4, R154. -/
  | sbr
  /-- OP 0x5, R181. -/
  | final
  /-- OP 0x6, R205. -/
  | filter
  deriving DecidableEq, Repr

end Sys2Proof
end

