-- ==== Sys2Proof/WellFormed.lean ====
section
/-! DEFINITION. Which command words are well formed (R91, R98). A command has no operand in its word, so every
term of `Instr` is well formed and the checks are on the 32-bit word. The checks on the configuration and descriptor
words a command uses are START's own (R233) and stand in Machine/Validate.lean. -/

namespace Sys2Proof

/-- `CMD32[31:4]`, the reserved field, is zero (R91). -/
def reservedClear (w : Word) : Bool := w.extractLsb' 4 28 == 0

/-- `CMD32[3:0]` is an assigned opcode, 0x0 to 0x6 (R92). -/
def opAssigned (w : Word) : Bool := decide ((w.extractLsb' 0 4).toNat ≤ 6)

/-- A legal command word: the legal values of CMD are 0x0 to 0x6 (R26, R98). -/
def wellFormedWord (w : Word) : Bool := reservedClear w && opAssigned w

end Sys2Proof
end

