-- ==== Sys2Proof/Decode.lean ====
section
/-! DEFINITION. The decoder of R99, total on every 32-bit value and rejecting by name, and the encoder written from
the opcode map of R92. -/

namespace Sys2Proof

/-- Why a command word is illegal (R98). -/
inductive Illegal where
  /-- A bit of `CMD32[31:4]` is set. -/
  | reservedBits
  /-- `CMD32[3:0]` is 0x7 to 0xF. -/
  | reservedOpcode
  deriving DecidableEq, Repr

/-- R99: the reserved field is looked at first, then OP. -/
def decode (w : Word) : Except Illegal Instr :=
  if w.extractLsb' 4 28 ≠ 0 then .error .reservedBits
  else match (w.extractLsb' 0 4).toNat with
    | 0 => .ok .nop
    | 1 => .ok .blur3
    | 2 => .ok .blur5
    | 3 => .ok .resid
    | 4 => .ok .sbr
    | 5 => .ok .final
    | 6 => .ok .filter
    | _ => .error .reservedOpcode

/-- The OP number of a command (R92). -/
def opcode : Instr → BitVec 4
  | .nop => 0x0
  | .blur3 => 0x1
  | .blur5 => 0x2
  | .resid => 0x3
  | .sbr => 0x4
  | .final => 0x5
  | .filter => 0x6

/-- The command word: OP in bits [3:0], zero in [31:4] (R91). -/
def encode (i : Instr) : Word := 0#28 ++ opcode i

/-- The host's view of the decoder: the row's bits numbered as the table numbers them. The core has one 32-bit
format (R90), so a length past 32 bits is no command. -/
def decodeTableWord (nbits w : Nat) : Option Instr :=
  if nbits ≤ 32 then (decode (BitVec.ofNat 32 (w % 2 ^ nbits))).toOption else none

end Sys2Proof
end

