-- ==== Sys2Proof/Config.lean ====
section
/-! DEFINITION. What an implementation fixes (the OPEN parameters P1 to P5 of 92_eei_decisions.md, R9), the fixed
identification constant (R21), and the free values: constants without a body, for what the spec calls
unspecified (93_implementation_defined.md section 2). -/

namespace Sys2Proof

/-- The parameters of one build (R9). They are held in the state as data that no step changes (R273), so that
every statement about all states speaks of every build. -/
structure Build where
  /-- `REG_BASE / 4096`: the window's address is a multiple of 4096 (P1). -/
  regPage : BitVec 20
  /-- `MAX_W`, samples a scratch row holds (R23). -/
  maxW : BitVec 16
  /-- `MAX_H`, rows the scratch store holds (R23). -/
  maxH : BitVec 16
  /-- `VW_SUPPORTED[3:1]`; bit 0, the scalar width, is always 1 (R10). -/
  vwWide : BitVec 3
  /-- `BusErr` as half-open ranges of host byte addresses (R9, R14). -/
  busErr : List (Nat × Nat)
  deriving DecidableEq, Repr

/-- `REG_BASE` (R9). -/
def Build.regBase (b : Build) : Nat := b.regPage.toNat * 4096

/-- `VW_SUPPORTED` with its bit 0 set (R10, R22). -/
def Build.vwSupported (b : Build) : BitVec 4 := b.vwWide ++ 1#1

/-- `BusErr` at a host byte address (R14). -/
def Build.busErrAt (b : Build) (a : Nat) : Bool := b.busErr.any fun r => decide (r.1 ≤ a ∧ a < r.2)

/-- `MAX_W` and `MAX_H` are in 1..65535 (R23). -/
abbrev Build.wf (b : Build) : Prop := b.maxW ≠ 0 ∧ b.maxH ≠ 0

/-- DESIGN CHOICE (log entry 2): the platform of the spec's own programs (95_test_vectors.md section 3) with a
REG_BASE of the model's. Only the state after power-on uses it; no operation of the machine does. -/
def Config.platform : Build :=
  { regPage := 0x40000, maxW := 64, maxH := 64, vwWide := 1, busErr := [] }

/-- `ID`, the ASCII bytes "VINV" (R21). -/
def Config.idWord : Word := 0x56494E56

/-- Log entry 8. A byte the spec leaves unspecified, by draw and address (R65, R77, R240, R271). -/
opaque Config.freeByte : Nat → Nat → Byte

/-- A register word the spec leaves unspecified, by draw and register (R34, R39, R61). -/
opaque Config.freeWord : Nat → Nat → Word

/-- A scratch sample the spec leaves unspecified, by draw, buffer, row and column (R35). -/
opaque Config.freeSample : Nat → Nat → Nat → Nat → BitVec 16

/-- Which of the erroneous accesses ERRADDR reports, by draw (R240). -/
opaque Config.freeIndex : Nat → Nat

end Sys2Proof
end

