-- ==== Sys2Proof/Machine/State.lean ====
section
/-! DEFINITION. The state of the VINV core as plain data (10_state.md), the host operations that are its input
(R101), the reasons a step can stop, and the state after power-on (R39, R270). -/

namespace Sys2Proof.Machine

/-- One plane descriptor: four 32-bit registers, all bits stored (R30). -/
structure Desc where
  base : Word
  pitch : Word
  width : Word
  height : Word
  deriving DecidableEq, Repr

/-- The descriptor slots D0..D3 (R30). -/
inductive Slot where
  | d0 | d1 | d2 | d3
  deriving DecidableEq, Repr

/-- The registers a START copies: CMD, CFG, AMNT, SSTR, SCL, D0..D3 (R26 to R30). The same shape holds the
snapshot S (R34). -/
structure CmdRegs where
  cmd : Word
  cfg : Word
  amnt : Word
  sstr : Word
  scl : Word
  d0 : Desc
  d1 : Desc
  d2 : Desc
  d3 : Desc
  deriving DecidableEq, Repr

/-- The fields of STATUS (R25); the word a host reads is `Status.word`. -/
structure Status where
  busy : Bool
  done : Bool
  err : Bool
  wdrop : Bool
  errcode : BitVec 4
  effVw : BitVec 3
  deriving DecidableEq, Repr

/-- The scratch buffers SA and SB, rows of 16-bit samples (R35). -/
structure Scratch where
  sa : List (List (BitVec 16))
  sb : List (List (BitVec 16))
  deriving DecidableEq, Repr

/-- A half-open range of host byte addresses (R66). -/
structure Extent where
  lo : Nat
  hi : Nat
  deriving DecidableEq, Repr

/-- What the outside world can do to the core: the primitive host operations (R101), accesses of other widths
(R33), the reset input (R270), and another instance of the core at work (R250). -/
inductive HostOp where
  /-- A write of `size` bytes to the register port at an offset of the window; `WR reg, v` has size 4. -/
  | regWrite (off : BitVec 12) (size : Nat) (v : Word)
  /-- A read of `size` bytes from the register port; `RD reg` has size 4. -/
  | regRead (off : BitVec 12) (size : Nat)
  /-- `POLL reg, mask, val`: read until `(value & mask) = val`. -/
  | poll (off : BitVec 12) (mask val : Word)
  /-- `MEMW8 a, v`. -/
  | memW8 (a : Word) (v : Byte)
  /-- `MEMW16 a, v`, little-endian. -/
  | memW16 (a : Word) (v : BitVec 16)
  /-- `MEMR8 a`. -/
  | memR8 (a : Word)
  /-- `MEMR16 a`, little-endian. -/
  | memR16 (a : Word)
  /-- The reset input RST is driven to a level: `true` asserts it, `false` releases it (R270). -/
  | rst (level : Bool)
  /-- Another instance is BUSY with these destination and input extents. -/
  | peerRun (dst : Extent) (inputs : List Extent)
  deriving DecidableEq, Repr

/-- The agents that step (R19). -/
inductive Agent where
  | host | core
  deriving DecidableEq, Repr

/-- Why the machine stops. The core's own errors are no stops: they end in a next state with ERR set (R232, R240). -/
inductive Fault where
  /-- An access at an address past 2^32 - 1, where no byte exists (R60): a 16-bit host access at 0xFFFFFFFF, or
  the end of a command in a state whose snapshot never passed the range check of R233. Safe: it stops where
  nothing is specified (DESIGN CHOICE, log entry 11). -/
  | outsideHostMemory
  /-- The core's turn in a BUSY state whose snapshot holds no command word. Safe: no run reaches such a state,
  since BUSY is set only for a decoded command (R232; DEDUCED, log entry 12). -/
  | noCommandRunning
  deriving DecidableEq, Repr

/-- Why an instruction has no meaning. -/
inductive Refusal where
  /-- Raised by an arm of `exec` whose instruction has no meaning yet. Safe: it stops the run. -/
  | notModelled (mnemonic : String)
  deriving DecidableEq, Repr

/-- The machine. The first group is the spec's architectural state (R20) with host memory (R60); the second is the
model's own. -/
structure State where
  /-- The build constants behind CAPS, MAXDIM and the memory port (R9, R22, R23); never changed (R273). -/
  build : Build
  /-- CTRL.IRQ_EN (R24); START and SRST read 0 and are not stored. -/
  irqEn : Bool
  /-- STATUS (R25); BUSY is also the pending flag of R37. -/
  status : Status
  /-- CMD, CFG, AMNT, SSTR, SCL, D0..D3 (R26 to R30). -/
  regs : CmdRegs
  /-- ERRADDR (R31). -/
  erraddr : Word
  /-- The START snapshot S (R34). -/
  snap : CmdRegs
  /-- The scratch store (R35). -/
  scratch : Scratch
  /-- The interrupt output IRQ (R38). -/
  irq : Bool
  /-- The level of the reset input RST; while it is asserted the core stays in the reset state (R270). -/
  rst : Bool
  /-- Host memory (R60), in canonical form. -/
  mem : List Host.Cell
  /-- The model's own: the host broke a duty of R76 while the running command ran (R77). -/
  breached : Bool
  /-- The model's own: host operations not yet issued, the host's program (R100). -/
  host : List HostOp
  /-- The model's own: which agent moves next (R290). -/
  turns : List Agent
  /-- The model's own: what the host's last read returned (R101). -/
  readData : Word
  /-- The model's own: how many free values have been drawn. -/
  draws : Nat
  deriving DecidableEq, Repr

/-- What a host operation or a core turn leads to: a settled state, a stop, or a command to run. -/
inductive Action where
  | settle (s : State)
  | stop (f : Fault)
  | run (i : Instr) (s : State)
  deriving DecidableEq, Repr

/-- A descriptor at reset: every field 0 (R30). -/
def Desc.reset : Desc := { base := 0, pitch := 0, width := 0, height := 0 }

/-- The registers at reset (the register map of 10_state.md, R270). -/
def CmdRegs.reset : CmdRegs :=
  { cmd := 0x00000000, cfg := 0x00000008, amnt := 0x00000000, sstr := 0x402CCCCD, scl := 0x3E800000,
    d0 := Desc.reset, d1 := Desc.reset, d2 := Desc.reset, d3 := Desc.reset }

/-- STATUS at reset: 0 (R25). -/
def Status.reset : Status :=
  { busy := false, done := false, err := false, wdrop := false, errcode := 0, effVw := 0 }

/-- DESIGN CHOICE (log entry 3): the snapshot before the first START, which R34 leaves unspecified. -/
def CmdRegs.zero : CmdRegs :=
  { cmd := 0, cfg := 0, amnt := 0, sstr := 0, scl := 0,
    d0 := Desc.reset, d1 := Desc.reset, d2 := Desc.reset, d3 := Desc.reset }

/-- DESIGN CHOICE (log entry 4): MAX_H rows of MAX_W zero samples, for contents R35 leaves unspecified. -/
def Scratch.zero (b : Build) : Scratch :=
  let buf := List.replicate b.maxH.toNat (List.replicate b.maxW.toNat 0)
  { sa := buf, sb := buf }

/-- The state right after power-on of a given build, RST released (R39, R270). -/
def State.resetOf (b : Build) : State :=
  { build := b, irqEn := false, status := Status.reset, regs := CmdRegs.reset, erraddr := 0,
    snap := CmdRegs.zero, scratch := Scratch.zero b, irq := false, rst := false, mem := [],
    breached := false, host := [], turns := [], readData := 0, draws := 0 }

/-- The state right after reset, on the platform of the model's configuration. -/
def State.reset : State := State.resetOf Config.platform

end Sys2Proof.Machine
end

