-- ==== Sys2Proof/Machine/Flags.lean ====
section
/-! DEFINITION. The status flags: STATUS as the word a host reads and its write-one-to-clear rule (R25), and the
interrupt level, recomputed wherever STATUS or IRQ_EN changes (R38, R243). -/

namespace Sys2Proof.Machine

/-- STATUS as read: EFF_VW [10:8], ERRCODE [7:4], WDROP [3], ERR [2], DONE [1], BUSY [0], the rest 0 (R25). -/
def Status.word (st : Status) : Word :=
  0#21 ++ st.effVw ++ st.errcode ++ BitVec.ofBool st.wdrop ++ BitVec.ofBool st.err ++ BitVec.ofBool st.done ++
    BitVec.ofBool st.busy

/-- A host write of STATUS: ones clear DONE, ERR (with ERRCODE) and WDROP; every other bit is ignored (R25). -/
def Status.w1c (st : Status) (v : Word) : Status :=
  { st with
    done := st.done && !v[1]
    err := st.err && !v[2]
    errcode := if v[2] then 0 else st.errcode
    wdrop := st.wdrop && !v[3] }

/-- What an accepted START clears: DONE, ERR, ERRCODE; WDROP and EFF_VW stay (R25, R232). -/
def Status.started (st : Status) : Status := { st with done := false, err := false, errcode := 0 }

/-- `IRQ = IRQ_EN and (DONE or ERR)` (R38). -/
def irqLevel (en : Bool) (st : Status) : Bool := en && (st.done || st.err)

/-- Write STATUS and recompute IRQ (R38). -/
def State.setStatus (s : State) (st : Status) : State :=
  { s with status := st, irq := irqLevel s.irqEn st }

/-- Write CTRL.IRQ_EN and recompute IRQ (R38). -/
def State.setIrqEn (s : State) (en : Bool) : State :=
  { s with irqEn := en, irq := irqLevel en s.status }

/-- A register write was dropped: `STATUS.WDROP <- 1` (R25, R280). -/
def State.dropWrite (s : State) : State := s.setStatus { s.status with wdrop := true }

end Sys2Proof.Machine
end

