-- ==== Sys2Proof/Machine/Memory.lean ====
section
/-! DEFINITION. Host memory as a list of cells in one canonical form, and its named operations (R14, R60, R64). -/

namespace Sys2Proof.Machine

/-- Host memory: address and byte, addresses strictly rising, no byte equal to what an unlisted address reads as. -/
abbrev Mem := List Host.Cell

/-- DESIGN CHOICE (log entry 1): what a byte reads as that nothing has written. -/
def Mem.unlisted : Byte := 0x00

/-- The byte at an address. -/
def Mem.read : Mem → Nat → Byte
  | [], _ => Mem.unlisted
  | c :: m, a => if a = c.1 then c.2 else Mem.read m a

/-- Write one byte, keeping the canonical form. -/
def Mem.write : Mem → Nat → Byte → Mem
  | [], a, v => if v = Mem.unlisted then [] else [(a, v)]
  | c :: m, a, v =>
    if a < c.1 then (if v = Mem.unlisted then c :: m else (a, v) :: c :: m)
    else if a = c.1 then (if v = Mem.unlisted then m else (a, v) :: m)
    else c :: Mem.write m a v

/-- Write a list of bytes, the last one at an address winning. -/
def Mem.writeAll (m : Mem) (ps : List (Nat × Byte)) : Mem :=
  ps.foldl (fun m p => Mem.write m p.1 p.2) m

/-- The first address past host memory (R60). -/
def memLimit : Nat := 2 ^ 32

/-- The canonical form, with every cell inside host memory. -/
abbrev Mem.wf (m : Mem) : Prop :=
  m.Pairwise (fun c d => c.1 < d.1) ∧ ∀ c ∈ m, c.1 < memLimit ∧ c.2 ≠ Mem.unlisted

/-- `MemRead(addr, n)`: n bytes assembled little-endian (R14, R64). -/
def Mem.readLE (m : Mem) (a : Nat) : Nat → Nat
  | 0 => 0
  | n + 1 => (Mem.read m a).toNat + 256 * Mem.readLE m (a + 1) n

/-- The bytes `MemWrite(addr, n, v)` stores: the n low bytes of v, the least at addr (R14, R64). -/
def cellBytes (a : Nat) : Nat → Nat → List (Nat × Byte)
  | 0, _ => []
  | n + 1, v => (a, BitVec.ofNat 8 v) :: cellBytes (a + 1) n (v / 256)

end Sys2Proof.Machine
end

