-- ==== Sys2Proof/Machine/Operands.lean ====
section
/-! DEFINITION. The operand forms of a command: the fields of the configuration words (R95, R96), the depth constants
(R200), descriptor slots and their roles (R93), sample addresses, cells and extents (R15, R63, R66), and planes as
two-dimensional arrays of integers (R15, R17). -/

namespace Sys2Proof.Machine

/-- `CFG[4:0]` (R95). -/
def CmdRegs.bits (S : CmdRegs) : Nat := (S.cfg.extractLsb' 0 5).toNat

/-- `CFG[6:5]`, 0 plain, 1 self-blur (R95). -/
def CmdRegs.mode (S : CmdRegs) : Nat := (S.cfg.extractLsb' 5 2).toNat

/-- `CFG[7]` (R95). -/
def CmdRegs.eclip (S : CmdRegs) : Bool := S.cfg[7]

/-- `CFG[11:8]` (R95). -/
def CmdRegs.vw (S : CmdRegs) : Nat := (S.cfg.extractLsb' 8 4).toNat

/-- `U`, bytes per stored sample (R200). -/
def CmdRegs.unit (S : CmdRegs) : Nat := if S.bits = 8 then 1 else 2

/-- `H = 2^(bits-1)` (R200). -/
def CmdRegs.mid (S : CmdRegs) : Nat := 2 ^ (S.bits - 1)

/-- `P = 2^bits - 1` (R200). -/
def CmdRegs.peak (S : CmdRegs) : Nat := 2 ^ S.bits - 1

/-- `A = (AMNT = 0) ? P : AMNT` (R96, R179). -/
def CmdRegs.radius (S : CmdRegs) : Nat := if S.amnt = 0 then S.peak else S.amnt.toNat

/-- The descriptor of a slot. -/
def CmdRegs.desc (S : CmdRegs) : Slot → Desc
  | .d0 => S.d0
  | .d1 => S.d1
  | .d2 => S.d2
  | .d3 => S.d3

/-- The slots a command reads (R93); D1 of FILTER only when ECLIP = 1. -/
def inputSlots (op : Instr) (S : CmdRegs) : List Slot :=
  match op with
  | .nop => []
  | .blur3 => [.d0]
  | .blur5 => [.d0]
  | .resid => [.d0, .d1]
  | .sbr => [.d0]
  | .final => [.d0, .d1, .d2]
  | .filter => if S.eclip then [.d0, .d1] else [.d0]

/-- The slots with a role, the destination D3 included (R93); NOP has none (R206). -/
def usedSlots (op : Instr) (S : CmdRegs) : List Slot :=
  match op with
  | .nop => []
  | _ => inputSlots op S ++ [.d3]

/-- `Addr(D, y, x) = BASE + y * PITCH + x * U` in exact arithmetic (R15, R63, R94). -/
def Desc.addr (d : Desc) (u y x : Nat) : Nat := d.base.toNat + y * d.pitch.toNat + x * u

/-- The extent of a descriptor (R66), empty for a plane without rows or columns. -/
def Desc.extent (d : Desc) (u : Nat) : Extent :=
  if d.width = 0 ∨ d.height = 0 then { lo := d.base.toNat, hi := d.base.toNat }
  else { lo := d.base.toNat,
         hi := d.base.toNat + (d.height.toNat - 1) * d.pitch.toNat + d.width.toNat * u }

/-- Two extents share a byte (R66, R71). -/
def Extent.meets (e f : Extent) : Bool :=
  decide (e.lo < e.hi ∧ f.lo < f.hi ∧ e.lo < f.hi ∧ f.lo < e.hi)

/-- A byte lies in an extent. -/
def Extent.has (e : Extent) (a : Nat) : Bool := decide (e.lo ≤ a ∧ a < e.hi)

/-- A byte lies in the cells of a descriptor, the row segments of R66, and not in its padding. -/
def Desc.inCells (d : Desc) (u a : Nat) : Bool :=
  (List.range d.height.toNat).any fun y =>
    decide (d.addr u y 0 ≤ a ∧ a < d.addr u y 0 + d.width.toNat * u)

/-- The positions of a plane, row by row. -/
def grid (h w : Nat) : List (Nat × Nat) :=
  (List.range h).flatMap fun y => (List.range w).map fun x => (y, x)

/-- The rows of the running command's planes: the height of D3, which every used plane has (R124, R233). -/
def CmdRegs.rows (S : CmdRegs) : Nat := S.d3.height.toNat

/-- The samples of a row of the running command's planes (R124, R233). -/
def CmdRegs.cols (S : CmdRegs) : Nat := S.d3.width.toNat

/-- The start addresses of the sample accesses a command performs on some slots, the set `Acc` of R240. -/
def accesses (ks : List Slot) (S : CmdRegs) : List Nat :=
  ks.flatMap fun k => (grid S.rows S.cols).map fun p => (S.desc k).addr S.unit p.1 p.2

/-- The byte addresses of the destination cells (R66). -/
def destBytes (S : CmdRegs) : List Nat :=
  (grid S.rows S.cols).flatMap fun p => (List.range S.unit).map fun k => S.d3.addr S.unit p.1 p.2 + k

/-- A plane value: rows of integer samples (R15). -/
abbrev Plane := List (List Nat)

/-- The sample `X[y][x]`. -/
def Plane.at (X : Plane) (y x : Nat) : Nat := (X.getD y []).getD x 0

/-- The plane of `h` rows and `w` columns with the given samples. -/
def Plane.make (h w : Nat) (f : Nat → Nat → Nat) : Plane :=
  (List.range h).map fun y => (List.range w).map fun x => f y x

/-- `Samp(D, y, x)`, a cell read whole (R15, R65). -/
def sample (m : Mem) (d : Desc) (u y x : Nat) : Nat := Mem.readLE m (d.addr u y x) u

/-- The plane value a command reads through a slot (R124). -/
def readPlane (m : Mem) (S : CmdRegs) (k : Slot) : Plane :=
  Plane.make S.rows S.cols fun y x => sample m (S.desc k) S.unit y x

/-- `SampWrite(S.D3, y, x, Y[y][x])` for every y, x, as the bytes stored (R15, R124). -/
def destWrites (S : CmdRegs) (Y : Plane) : List (Nat × Byte) :=
  (grid S.rows S.cols).flatMap fun p =>
    cellBytes (S.d3.addr S.unit p.1 p.2) S.unit (Plane.at Y p.1 p.2)

end Sys2Proof.Machine
end

