-- ==== Sys2Proof/Machine/Validate.lean ====
section
/-! DEFINITION. The checks START makes on the snapshot before any memory access, in the order of R233, and the vector
width a command runs at (R202). Code 1 is the decoder's (R99); code 7 belongs to execution (R240). -/

namespace Sys2Proof.Machine

/-- The error codes of R233. -/
inductive ErrCode where
  | illegalCmd | config | geometry | align | capacity | overlap | bus
  deriving DecidableEq, Repr

/-- The value reported in STATUS.ERRCODE (R233). -/
def ErrCode.num : ErrCode → BitVec 4
  | .illegalCmd => 1
  | .config => 2
  | .geometry => 3
  | .align => 4
  | .capacity => 5
  | .overlap => 6
  | .bus => 7

/-- Whether a vector-width code is auto or a built width (R27, R202). -/
def vwLegal (b : Build) (v : Nat) : Bool := decide (v = 0 ∨ (v ≤ 4 ∧ b.vwSupported.getLsbD (v - 1)))

/-- The widest built vector-width code (R202). -/
def widestVw (b : Build) : BitVec 3 :=
  if b.vwSupported[3] then 4 else if b.vwSupported[2] then 3
  else if b.vwSupported[1] then 2 else 1

/-- `EFF`: the forced code, or the widest for auto (R202). -/
def effectiveVw (b : Build) (S : CmdRegs) : BitVec 3 :=
  if S.vw = 0 then widestVw b else BitVec.ofNat 3 S.vw

/-- A binary32 pattern with exponent field 0xFF, an infinity or NaN (R29). -/
def nonFinite (w : Word) : Bool := w.extractLsb' 23 8 == 0xFF

/-- Code 2 CONFIG (R233). -/
def configBad (b : Build) (S : CmdRegs) : Bool :=
  S.cfg.extractLsb' 12 20 != 0
    || !(S.bits == 8 || S.bits == 10 || S.bits == 12 || S.bits == 14 || S.bits == 16)
    || decide (2 ≤ S.mode)
    || !vwLegal b S.vw
    || S.amnt.extractLsb' 16 16 != 0
    || decide (S.peak < S.amnt.toNat)
    || nonFinite S.sstr || nonFinite S.scl

/-- The clauses of code 3 for one used descriptor: shape, pitch, range (R233). -/
def Desc.badGeometry (d dst : Desc) (u : Nat) : Bool :=
  decide (d.width ≠ dst.width ∨ d.height ≠ dst.height)
    || decide (d.pitch.toNat < d.width.toNat * u)
    || decide (0 < d.width.toNat ∧ 0 < d.height.toNat ∧
        memLimit < d.base.toNat + (d.height.toNat - 1) * d.pitch.toNat + d.width.toNat * u)

/-- Code 3 GEOMETRY (R233). -/
def geometryBad (op : Instr) (S : CmdRegs) : Bool :=
  (usedSlots op S).any fun k => (S.desc k).badGeometry S.d3 S.unit

/-- Code 4 ALIGN (R67, R233). -/
def alignBad (op : Instr) (S : CmdRegs) : Bool :=
  S.unit == 2 &&
    (usedSlots op S).any fun k => (S.desc k).base[0] || (S.desc k).pitch[0]

/-- Code 5 CAPACITY: only SBR and FILTER use the scratch store (R35, R233). -/
def capacityBad (b : Build) (op : Instr) (S : CmdRegs) : Bool :=
  (op == .sbr || op == .filter) &&
    (decide (b.maxW.toNat < S.d3.width.toNat) || decide (b.maxH.toNat < S.d3.height.toNat))

/-- Code 6 OVERLAP: an input extent meets the destination's (R71, R233). -/
def overlapBad (op : Instr) (S : CmdRegs) : Bool :=
  (inputSlots op S).any fun k => ((S.desc k).extent S.unit).meets (S.d3.extent S.unit)

/-- `validate(S)` for a command other than NOP: the first failing check (R232, R233, R235). -/
def validate (b : Build) (op : Instr) (S : CmdRegs) : Option ErrCode :=
  if configBad b S then some .config
  else if geometryBad op S then some .geometry
  else if alignBad op S then some .align
  else if capacityBad b op S then some .capacity
  else if overlapBad op S then some .overlap
  else none

end Sys2Proof.Machine
end

