-- ==== Sys2Proof/Machine/Ops.lean ====
section
/-! DEFINITION. The shared operations of a command's life: the accepted START (R231, R232), the error entry (R232,
R244), the ends of a running command (R240, R241) with their unspecified values (R61, R65, R77), the reset (R270,
R271), and the two phases every command other than NOP runs in (R75, R290). -/

namespace Sys2Proof.Machine

/-- What a meaning answers. -/
abbrev Result := Host.Outcome State Fault Refusal

/-! ### Unspecified values -/

/-- Registers whose contents are unspecified, by draw (R34, R61). -/
def freeRegs (n : Nat) : CmdRegs :=
  let w := Config.freeWord n
  { cmd := w 0, cfg := w 1, amnt := w 2, sstr := w 3, scl := w 4,
    d0 := { base := w 5, pitch := w 6, width := w 7, height := w 8 }
    d1 := { base := w 9, pitch := w 10, width := w 11, height := w 12 }
    d2 := { base := w 13, pitch := w 14, width := w 15, height := w 16 }
    d3 := { base := w 17, pitch := w 18, width := w 19, height := w 20 } }

/-- A STATUS register with unspecified contents and no command running, by draw (R61). -/
def freeStatus (n : Nat) : Status :=
  let v := Config.freeWord n 23
  { busy := false, done := v[1], err := v[2], wdrop := v[3],
    errcode := v.extractLsb' 4 4, effVw := v.extractLsb' 8 3 }

/-- MAX_H rows of MAX_W unspecified samples in both buffers, by draw (R35). -/
def freeScratch (b : Build) (n : Nat) : Scratch :=
  let buf (k : Nat) := (List.range b.maxH.toNat).map fun y =>
    (List.range b.maxW.toNat).map fun x => Config.freeSample n k y x
  { sa := buf 0, sb := buf 1 }

/-- Every byte of the destination cells takes an unspecified value (R65, R77, R240, R271). The bytes written are
those that host memory has. -/
def freeDest (S : CmdRegs) (n : Nat) (m : Mem) : Mem :=
  Mem.writeAll m (((destBytes S).filter (· < memLimit)).map fun a => (a, Config.freeByte n a))

/-! ### START and the error entry -/

/-- The START snapshot and the flags an accepted START clears (R231, R232): before any check. -/
def acceptStart (s : State) : State :=
  { s with snap := s.regs, erraddr := 0, breached := false }.setStatus s.status.started

/-- `raise Error(code)` (R16, R244): ERR and ERRCODE, no command running. -/
def raiseError (code : ErrCode) (s : State) : State :=
  s.setStatus { s.status with busy := false, err := true, errcode := code.num }

/-- A command ends without error (R241). -/
def signalDone (s : State) : State := s.setStatus { s.status with busy := false, done := true }

/-- An accepted START of a word that is no command: ILLEGAL_CMD before any other check (R98, R232). -/
def startIllegal (s : State) : State := raiseError .illegalCmd (acceptStart s)

/-- An accepted START of NOP: DONE at once, nothing checked (R206, R232). -/
def startNop (s : State) : State := signalDone (acceptStart s)

/-- An accepted START of another command: the first failing check is reported, else the command runs (R232). -/
def startCommand (op : Instr) (s : State) : State :=
  let s1 := acceptStart s
  match validate s1.build op s1.snap with
  | some code => raiseError code s1
  | none => s1.setStatus { s1.status with busy := true, effVw := effectiveVw s1.build s1.snap }

/-! ### The end of a running command -/

/-- The sample accesses the running command performs (R240). -/
def runAccesses (op : Instr) (S : CmdRegs) : List Nat := accesses (usedSlots op S) S

/-- Some byte of an access does not exist in host memory; the range check of R233 excludes it. -/
def reachesOutside (op : Instr) (S : CmdRegs) : Bool :=
  (runAccesses op S).any fun a => decide (memLimit < a + S.unit)

/-- The memory answers an access with a bus error: `BusErr` holds at one of its bytes (R14, R240). -/
def accessFails (b : Build) (u a : Nat) : Bool := (List.range u).any fun k => b.busErrAt (a + k)

/-- The erroneous accesses of the running command (R240). -/
def failingAccesses (b : Build) (op : Instr) (S : CmdRegs) : List Nat :=
  (runAccesses op S).filter (accessFails b S.unit)

/-- The register window as an extent of host addresses (R60). -/
def registerWindow (b : Build) : Extent := { lo := b.regBase, hi := b.regBase + 4096 }

/-- A used descriptor extent reaches the register window (R61; log entry 10). -/
def reachesWindow (b : Build) (op : Instr) (S : CmdRegs) : Bool :=
  (usedSlots op S).any fun k => ((S.desc k).extent S.unit).meets (registerWindow b)

/-- Some sample the command reads exceeds P (R65). -/
def sampleAbovePeak (m : Mem) (op : Instr) (S : CmdRegs) : Bool :=
  (accesses (inputSlots op S) S).any fun a => decide (S.peak < Mem.readLE m a S.unit)

/-- The running command leaves the core: memory holds `m`, the scratch store is unspecified again (R35). -/
def leaveCommand (m : Mem) (s : State) : State :=
  { s with mem := m, scratch := freeScratch s.build s.draws, breached := false, draws := s.draws + 1 }

/-- Bus error (R240): code 7, ERRADDR one of the erroneous accesses `e :: es`, by a free choice (DEDUCED, log entry 9),
destination cells unspecified. -/
def endBusError (e : Nat) (es : List Nat) (s : State) : State :=
  let pick := (e :: es).getD (Config.freeIndex s.draws % (e :: es).length) e
  raiseError .bus { leaveCommand (freeDest s.snap s.draws s.mem) s with erraddr := BitVec.ofNat 32 pick }

/-- The command reached the register window (R61): destination cells and register values unspecified. DESIGN CHOICE
(log entry 10): no command is running any more. -/
def endInWindow (s : State) : State :=
  let n := s.draws
  { leaveCommand (freeDest s.snap n s.mem) s with
    regs := freeRegs n, erraddr := Config.freeWord n 21,
    irqEn := (Config.freeWord n 22)[2] }.setStatus (freeStatus n)

/-- The command ends with DONE and unspecified destination cells (R65, R77). -/
def endUnspecified (s : State) : State := signalDone (leaveCommand (freeDest s.snap s.draws s.mem) s)

/-- Normal completion: every destination cell holds the value the command's rule gives (R75, R241). -/
def endNormally (Y : Plane) (s : State) : State :=
  signalDone (leaveCommand (Mem.writeAll s.mem (destWrites s.snap Y)) s)

/-- A command's rule on planes: the snapshot and the plane read through each slot give the destination plane (R17). -/
abbrev Kernel := CmdRegs → (Slot → Plane) → Plane

/-- The end of the running command, as one step at the moment BUSY is cleared (R75, R240, R241). DESIGN CHOICE (log
entry 21): the order in which the unusual ends are looked for. -/
def finishCommand (op : Instr) (kernel : Kernel) (s : State) : Result :=
  if reachesOutside op s.snap then .fault .outsideHostMemory
  else if reachesWindow s.build op s.snap then .next (endInWindow s)
  else match failingAccesses s.build op s.snap with
    | e :: es => .next (endBusError e es s)
    | [] =>
      if s.breached || sampleAbovePeak s.mem op s.snap then .next (endUnspecified s)
      else .next (endNormally (kernel s.snap (readPlane s.mem s.snap)) s)

/-- A command in its two phases: the accepted START when the core is idle, the command's end when it is BUSY
(R37, R75, R232; DEDUCED, log entry 6). -/
def runCommand (op : Instr) (kernel : Kernel) (s : State) : Result :=
  if s.status.busy then finishCommand op kernel s else .next (startCommand op s)

/-! ### Reset -/

/-- The reset state, of RST and of a soft reset (R270, R271): every register at its reset value, snapshot and scratch
unspecified; a running command is abandoned, its destination cells unspecified. -/
def resetCore (s : State) : State :=
  { s with
    irqEn := false, status := Status.reset, regs := CmdRegs.reset, erraddr := 0, irq := false,
    snap := freeRegs s.draws, scratch := freeScratch s.build s.draws, breached := false,
    mem := if s.status.busy then freeDest s.snap s.draws s.mem else s.mem,
    draws := s.draws + 1 }

/-- RST is driven to a level: asserting it puts the core in the reset state, releasing it leaves the core there (R270). -/
def driveReset (level : Bool) (s : State) : State :=
  if level then { resetCore s with rst := true } else { s with rst := false }

end Sys2Proof.Machine
end

