-- ==== Sys2Proof/Machine/Finalize.lean ====
section
/-! DEFINITION. The finalization and blend stage: FINAL (43_finalize.md). -/

namespace Sys2Proof.Machine

/-- The snapshot's parameters of the blend: ECLIP, SSTR, SCL, the effective radius A and the peak P (R172 to R179). -/
structure Blend where
  eclip : Bool
  sstr : Int
  scl : Int
  radius : Nat
  peak : Nat
  deriving DecidableEq, Repr

/-- The blend parameters of a snapshot (R170, R179, R201). -/
def CmdRegs.blend (S : CmdRegs) : Blend :=
  { eclip := S.eclip, sstr := f32OfWord S.sstr, scl := f32OfWord S.scl, radius := S.radius, peak := S.peak }

/-- `t`: the second signal, scaled by `sstr` in plain mode (R172), as it stands with an external reference (R173). -/
def Blend.signal (p : Blend) (s b r : Int) : F32 :=
  if p.eclip then .fin (f32OfInt (s - r)) else f32Mul (f32OfInt (b - r)) p.sstr

/-- `da`: the signal of smaller magnitude, the second on a tie (R174). It is finite: an infinite `t` is never the
smaller (R183). -/
def smallerSignal (d1 : Int) : F32 → Int
  | .fin t => if (f32OfInt d1).natAbs < t.natAbs then f32OfInt d1 else t
  | .inf _ => f32OfInt d1

/-- `dis`: the signs disagree, a zero on either side giving false (R175). -/
def signsDisagree (d1 : Int) : F32 → Bool
  | .fin t => decide ((d1 < 0 ∧ 0 < t) ∨ (0 < d1 ∧ t < 0))
  | .inf neg => if neg then decide (0 < d1) else decide (d1 < 0)

/-- `add`: attenuated by `scl` when the signs disagree (R176). It depends on d1 and t alone. -/
def Blend.addend (p : Blend) (d1 : Int) (t : F32) : F32 :=
  if signsDisagree d1 t then f32Mul (smallerSignal d1 t) p.scl else .fin (smallerSignal d1 t)

/-- `trunc` of a finite value, toward zero (R13, R177). -/
def f32Trunc (k : Int) : Int := k.tdiv f32One

/-- `clamp(base + trunc(add), lo, hi)`, an infinity going to the bound on its side (R177, R178, R180). -/
def reconstruct (base : Int) (add : F32) (lo hi : Int) : Int :=
  match add with
  | .fin k => clamp (base + f32Trunc k) lo hi
  | .inf neg => if neg then lo else hi

/-- `final_pixel(s, b, r)` (R171 to R180). -/
def Blend.pixel (p : Blend) (s b r : Int) : Int :=
  let d1 := s - b
  let add := p.addend d1 (p.signal s b r)
  reconstruct (if p.eclip then r else b) add (max (s - p.radius) 0) (min (s + p.radius) p.peak)

/-- An entry of the optional lookup table of plain 8-bit finalization: the correction clamped to -255..255 (R36, R182).
No meaning reads it (DEDUCED, log entry 19); that it is invisible is a statement. -/
def Blend.lutEntry (p : Blend) (i j : Nat) : Int :=
  match p.addend ((i : Int) - 255) (f32Mul (f32OfInt ((j : Int) - 255)) p.sstr) with
  | .fin k => clamp (f32Trunc k) (-255) 255
  | .inf neg => if neg then -255 else 255

/-- `final(X, B, R)`, pointwise (R180). -/
def finalPlane (S : CmdRegs) (p : Blend) (X B R : Plane) : Plane :=
  Plane.make S.rows S.cols fun y x => (p.pixel (X.at y x) (B.at y x) (R.at y x)).toNat

/-- D3 <- final(D0, D1, D2) (R181). -/
def finalKernel : Kernel := fun S read => finalPlane S S.blend (read .d0) (read .d1) (read .d2)

/-- FINAL (R181). -/
def execFinal (s : State) : Result := runCommand .final finalKernel s

end Sys2Proof.Machine
end

