-- ==== Sys2Proof/Machine/Convolution.lean ====
section
/-! DEFINITION. Boundary-reflective convolution: BLUR3 and BLUR5 (40_convolution.md). -/

namespace Sys2Proof.Machine

/-- `Refl(i, h)`, whole-sample reflection iterated until the row is in range (R120). -/
def reflRow (i : Int) (h : Nat) : Nat :=
  if h = 1 then 0
  else
    let p : Int := 2 * ((h : Int) - 1)
    let m := i % p
    (if m ≤ (h : Int) - 1 then m else p - m).toNat

/-- The rounding constant of the 3-tap kernel at every depth (R122). -/
def roundC3 : Nat := 2

/-- The rounding constant of the 5-tap kernel at every depth (R122). -/
def roundC5 : Nat := 8

/-- A row of a column with reflection: the tap that names row `y + k` (R120). -/
def tap (X : Plane) (h y : Nat) (k : Int) (x : Nat) : Nat := X.at (reflRow ((y : Int) + k) h) x

/-- One sample of the 3-tap kernel (R123); the shift is a truncating unsigned one (R128). -/
def blur3At (X : Plane) (h y x : Nat) : Nat :=
  (tap X h y (-1) x + 2 * tap X h y 0 x + tap X h y 1 x + roundC3) >>> 2

/-- One sample of the 5-tap kernel (R125). -/
def blur5At (X : Plane) (h y x : Nat) : Nat :=
  (tap X h y (-2) x + 4 * (tap X h y (-1) x + tap X h y 1 x) + 6 * tap X h y 0 x + tap X h y 2 x + roundC5) >>> 4

/-- `blur3(X)` of a plane of `h` rows and `w` columns (R123). -/
def blur3 (h w : Nat) (X : Plane) : Plane := Plane.make h w (blur3At X h)

/-- `blur5(X)` of a plane of `h` rows and `w` columns (R125). -/
def blur5 (h w : Nat) (X : Plane) : Plane := Plane.make h w (blur5At X h)

/-- D3 <- blur3(D0) (R124). -/
def blur3Kernel : Kernel := fun S read => blur3 S.rows S.cols (read .d0)

/-- D3 <- blur5(D0) (R126). -/
def blur5Kernel : Kernel := fun S read => blur5 S.rows S.cols (read .d0)

/-- BLUR3 (R124). -/
def execBlur3 (s : State) : Result := runCommand .blur3 blur3Kernel s

/-- BLUR5 (R126). -/
def execBlur5 (s : State) : Result := runCommand .blur5 blur5Kernel s

end Sys2Proof.Machine
end

