-- ==== Sys2Proof/Machine/Residual.lean ====
section
/-! DEFINITION. The signed residual computer: RESID (41_residual.md). -/

namespace Sys2Proof.Machine

/-- `clamp(x - y + H, 0, P)` in exact arithmetic (R140). -/
def residSample (mid peak x y : Nat) : Nat := (clamp ((x : Int) - y + mid) 0 peak).toNat

/-- `resid(X, Y)` at the snapshot's depth (R140). -/
def resid (S : CmdRegs) (X Y : Plane) : Plane :=
  Plane.make S.rows S.cols fun y x => residSample S.mid S.peak (X.at y x) (Y.at y x)

/-- D3 <- resid(D0, D1) (R141). -/
def residKernel : Kernel := fun S read => resid S (read .d0) (read .d1)

/-- RESID (R141). -/
def execResid (s : State) : Result := runCommand .resid residKernel s

end Sys2Proof.Machine
end

