-- ==== Sys2Proof/Machine/Restorer.lean ====
section
/-! DEFINITION. The self-blur residual restorer: SBR (42_sbr.md). -/

namespace Sys2Proof.Machine

/-- The per-sample decision: keep, correct-light or correct-heavy (R151). The sign test is that of the exact
product (R152). -/
def sbrPixel (mid : Nat) (s r q : Int) : Int :=
  let t := r - q
  let t2 := r - mid
  if t * t2 < 0 then s
  else if t.natAbs < t2.natAbs then s - t
  else s - r + mid

/-- `sbr(X)`: the local mean, its residual, the blurred residual, then the decision per sample (R150). The planes
between are the scratch store's and are not observable (R155). -/
def sbr (S : CmdRegs) (X : Plane) : Plane :=
  let tmp := blur3 S.rows S.cols X
  let res := resid S X tmp
  let tmp2 := blur3 S.rows S.cols res
  Plane.make S.rows S.cols fun y x => (sbrPixel S.mid (X.at y x) (res.at y x) (tmp2.at y x)).toNat

/-- D3 <- sbr(D0) (R154). -/
def sbrKernel : Kernel := fun S read => sbr S (read .d0)

/-- SBR (R154). -/
def execSbr (s : State) : Result := runCommand .sbr sbrKernel s

end Sys2Proof.Machine
end

