-- ==== Sys2Proof/Machine/Pipeline.lean ====
section
/-! DEFINITION. The per-plane pipeline FILTER and the command NOP (44_dispatch_pipeline.md). -/

namespace Sys2Proof.Machine

/-- Buffer A: the 3-tap blur in plain mode, the restorer in self-blur mode (R205). -/
def stageA (S : CmdRegs) (X : Plane) : Plane :=
  if S.mode = 0 then blur3 S.rows S.cols X else sbr S X

/-- The whole pipeline: with ECLIP = 0 buffer B is the 5-tap blur of A, with ECLIP = 1 the clip of D1 takes its
place (R205). -/
def filterKernel : Kernel := fun S read =>
  let X := read .d0
  let A := stageA S X
  if S.eclip then finalPlane S S.blend X A (read .d1)
  else finalPlane S S.blend X A (blur5 S.rows S.cols A)

/-- FILTER (R205). -/
def execFilter (s : State) : Result := runCommand .filter filterKernel s

/-- NOP (R206): DONE at once within the START, no memory access. DESIGN CHOICE (log entry 18): in a BUSY state, which
NOP never causes, it only signals its end. -/
def execNop (s : State) : Result := .next (if s.status.busy then signalDone s else startNop s)

end Sys2Proof.Machine
end

