-- ==== Sys2Proof/Machine/Dispatch.lean ====
section
/-! DEFINITION. The meaning of every command: one direct call each (R92). -/

namespace Sys2Proof.Machine

def exec (i : Instr) (s : State) : Host.Outcome State Fault Refusal :=
  match i with
  | .nop => Sys2Proof.Machine.execNop s
  | .blur3 => Sys2Proof.Machine.execBlur3 s
  | .blur5 => Sys2Proof.Machine.execBlur5 s
  | .resid => Sys2Proof.Machine.execResid s
  | .sbr => Sys2Proof.Machine.execSbr s
  | .final => Sys2Proof.Machine.execFinal s
  | .filter => Sys2Proof.Machine.execFilter s

end Sys2Proof.Machine
end

