-- ==== Sys2Proof/Machine/Port.lean ====
section
/-! DEFINITION. The register port: which register an offset names (the register map of 10_state.md), what a read
returns and what a write does, idle and BUSY (R21 to R33, R280). -/

namespace Sys2Proof.Machine

/-- The four registers of a descriptor (R30). -/
inductive DescField where
  | base | pitch | width | height
  deriving DecidableEq, Repr

/-- The registers of the window by name; `reserved` for every other offset (R32). -/
inductive Reg where
  | id | caps | maxdim | ctrl | status | cmd | cfg | amnt | sstr | scl | erraddr
  | desc (k : Slot) (f : DescField)
  | reserved
  deriving DecidableEq, Repr

/-- The slot with a number 0..3 (R30). -/
def slotOfNum : Nat → Slot
  | 0 => .d0
  | 1 => .d1
  | 2 => .d2
  | _ => .d3

/-- The descriptor register with a number 0..3 (R30). -/
def fieldOfNum : Nat → DescField
  | 0 => .base
  | 1 => .pitch
  | 2 => .width
  | _ => .height

/-- The register map (10_state.md, section 2). -/
def regAt (off : Nat) : Reg :=
  if 0x040 ≤ off ∧ off < 0x080 then .desc (slotOfNum ((off - 0x040) / 16)) (fieldOfNum (off % 16 / 4))
  else match off with
    | 0x000 => .id
    | 0x004 => .caps
    | 0x008 => .maxdim
    | 0x00C => .ctrl
    | 0x010 => .status
    | 0x014 => .cmd
    | 0x018 => .cfg
    | 0x01C => .amnt
    | 0x020 => .sstr
    | 0x024 => .scl
    | 0x028 => .erraddr
    | _ => .reserved

/-- The port acts only on 32-bit accesses at multiples of 4 (R33). -/
def portAccepts (off : BitVec 12) (size : Nat) : Bool := size == 4 && off.toNat % 4 == 0

/-- One register of a descriptor. -/
def Desc.get (d : Desc) : DescField → Word
  | .base => d.base
  | .pitch => d.pitch
  | .width => d.width
  | .height => d.height

/-- Write one register of a descriptor. -/
def Desc.set (d : Desc) (f : DescField) (v : Word) : Desc :=
  match f with
  | .base => { d with base := v }
  | .pitch => { d with pitch := v }
  | .width => { d with width := v }
  | .height => { d with height := v }

/-- Put a descriptor into a slot. -/
def CmdRegs.setDesc (S : CmdRegs) (k : Slot) (d : Desc) : CmdRegs :=
  match k with
  | .d0 => { S with d0 := d }
  | .d1 => { S with d1 := d }
  | .d2 => { S with d2 := d }
  | .d3 => { S with d3 := d }

/-- CTRL as read: IRQ_EN in bit 2, the rest 0 (R24). -/
def ctrlWord (en : Bool) : Word := if en then 4 else 0

/-- What a register reads (R21 to R32). -/
def regRead (s : State) : Reg → Word
  | .id => Config.idWord
  | .caps => 0#28 ++ s.build.vwSupported
  | .maxdim => s.build.maxH ++ s.build.maxW
  | .ctrl => ctrlWord s.irqEn
  | .status => s.status.word
  | .cmd => s.regs.cmd
  | .cfg => s.regs.cfg
  | .amnt => s.regs.amnt
  | .sstr => s.regs.sstr
  | .scl => s.regs.scl
  | .erraddr => s.erraddr
  | .desc k f => (s.regs.desc k).get f
  | .reserved => 0

/-- A read of the register port: no side effect, 0 for an access the port does not accept (R33). -/
def portRead (off : BitVec 12) (size : Nat) (s : State) : Word :=
  if portAccepts off size then regRead s (regAt off.toNat) else 0

/-- A write to a register a START copies: stored whole, or dropped with WDROP while BUSY (R26 to R30, R280). -/
def writeSetup (R : CmdRegs) (s : State) : State :=
  if s.status.busy then s.dropWrite else { s with regs := R }

/-- The START bit of a CTRL write (R230): dropped while BUSY, else the command in CMD is decoded and run. -/
def portStart (s : State) : Action :=
  if s.status.busy then .settle s.dropWrite
  else match decode s.regs.cmd with
    | .ok i => .run i s
    | .error _ => .settle (startIllegal s)

/-- A CTRL write in the order of R24: SRST alone, else IRQ_EN and then START. -/
def writeCtrl (v : Word) (s : State) : Action :=
  if v[1] then .settle (resetCore s)
  else
    let s1 := s.setIrqEn v[2]
    if v[0] then portStart s1 else .settle s1

/-- A write of a register (R21 to R32, R280). -/
def regWrite (r : Reg) (v : Word) (s : State) : Action :=
  match r with
  | .id => .settle s
  | .caps => .settle s
  | .maxdim => .settle s
  | .ctrl => writeCtrl v s
  | .status => .settle (s.setStatus (s.status.w1c v))
  | .cmd => .settle (writeSetup { s.regs with cmd := v } s)
  | .cfg => .settle (writeSetup { s.regs with cfg := v } s)
  | .amnt => .settle (writeSetup { s.regs with amnt := v } s)
  | .sstr => .settle (writeSetup { s.regs with sstr := v } s)
  | .scl => .settle (writeSetup { s.regs with scl := v } s)
  | .erraddr => .settle s
  | .desc k f => .settle (writeSetup (s.regs.setDesc k ((s.regs.desc k).set f v)) s)
  | .reserved => .settle s

/-- A write to the register port: nothing at all for an access the port does not accept (R33), nor while RST holds the
core in the reset state (R270; DEDUCED, log entry 24). -/
def portWrite (off : BitVec 12) (size : Nat) (v : Word) (s : State) : Action :=
  if s.rst then .settle s
  else if portAccepts off size then regWrite (regAt off.toNat) v s else .settle s

end Sys2Proof.Machine
end

