-- ==== Sys2Proof/Machine/Fetch.lean ====
section
/-! DEFINITION. What the next step does: which agent moves (R19, R290), the host's operations on the register port
and on host memory (R76, R77, R101), and the command that runs, read from CMD at START and from the snapshot at its
end (R90, R231). -/

namespace Sys2Proof.Machine

/-! ### Host memory accesses of the host -/

/-- The used extents of the running command, none when the core is idle (R76). -/
def runningExtents (s : State) : List Extent :=
  if s.status.busy then
    match decode s.snap.cmd with
    | .ok i => (usedSlots i s.snap).map fun k => (s.snap.desc k).extent s.snap.unit
    | .error _ => []
  else []

/-- A byte of the running command's destination cells, which no host may rely on (R76, R77). -/
def inRunningDest (s : State) (a : Nat) : Bool :=
  s.status.busy && s.snap.d3.inCells s.snap.unit a

/-- The host writes one byte at a host address. In the register window it is a narrow access that changes nothing
(R33; DEDUCED, log entry 13); a byte of a used extent of the running command breaks R76 (log entry 14). -/
def hostWriteByte (a : Nat) (v : Byte) (s : State) : State :=
  if (registerWindow s.build).has a then s
  else { s with mem := Mem.write s.mem a v
                breached := s.breached || (runningExtents s).any (·.has a) }

/-- The byte the host reads at a host address: 0 in the register window (R33), unspecified in the destination cells
of the running command (R77; DEDUCED, log entry 15). -/
def hostReadByte (a : Nat) (s : State) : Byte :=
  if (registerWindow s.build).has a then 0
  else if inRunningDest s a then Config.freeByte s.draws a
  else Mem.read s.mem a

/-- A host read returns a word; a free value it may have used is spent. -/
def State.returned (s : State) (v : Word) : State := { s with readData := v, draws := s.draws + 1 }

/-- Another instance runs with these extents while this one is BUSY: a destination that meets an extent of the other
breaks R76 for each (R250; DESIGN CHOICE, log entry 20). -/
def peerConflict (dst : Extent) (inputs : List Extent) (s : State) : Bool :=
  (runningExtents s).any (·.meets dst) ||
    (s.status.busy && inputs.any (·.meets (s.snap.d3.extent s.snap.unit)))

/-! ### One host operation -/

/-- One host operation, already taken off the list (R101, R270). DESIGN CHOICES: a POLL is one read a step (log
entry 23), an access past the last address stops (log entry 11). -/
def hostOp (op : HostOp) (s : State) : Action :=
  match op with
  | .regWrite off size v => portWrite off size v s
  | .regRead off size => .settle { s with readData := portRead off size s }
  | .poll off mask val =>
    let v := portRead off 4 s
    if v &&& mask = val then .settle { s with readData := v }
    else .settle { s with readData := v, host := .poll off mask val :: s.host }
  | .memW8 a v => .settle (hostWriteByte a.toNat v s)
  | .memW16 a v =>
    if memLimit < a.toNat + 2 then .stop .outsideHostMemory
    else .settle (hostWriteByte (a.toNat + 1) (v.extractLsb' 8 8) (hostWriteByte a.toNat (v.extractLsb' 0 8) s))
  | .memR8 a => .settle (s.returned (0#24 ++ hostReadByte a.toNat s))
  | .memR16 a =>
    if memLimit < a.toNat + 2 then .stop .outsideHostMemory
    else .settle (s.returned (0#16 ++ hostReadByte (a.toNat + 1) s ++ hostReadByte a.toNat s))
  | .rst level => .settle (driveReset level s)
  | .peerRun dst inputs => .settle { s with breached := s.breached || peerConflict dst inputs s }

/-! ### Whose move it is -/

/-- The agent that moves: the next turn, or with no turn listed the core while it is BUSY and else the host (DESIGN
CHOICE, log entry 5). -/
def mover (s : State) : Agent :=
  match s.turns with
  | a :: _ => a
  | [] => if s.status.busy then .core else .host

/-- The host's move: its next operation, or nothing. -/
def hostMove (s : State) : Action :=
  match s.host with
  | [] => .settle s
  | op :: rest => hostOp op { s with host := rest }

/-- The core's move: the running command ends; an idle core waits for a register access (R39). -/
def coreMove (s : State) : Action :=
  if s.status.busy then
    match decode s.snap.cmd with
    | .ok i => .run i s
    | .error _ => .stop .noCommandRunning
  else .settle s

/-- What the next step does. -/
def nextAction (s : State) : Action :=
  let s1 := { s with turns := s.turns.tail }
  match mover s with
  | .host => hostMove s1
  | .core => coreMove s1

/-- Bit 0 of CTRL is START (R24); RUN keeps IRQ_EN (R102). -/
def startWord (en : Bool) : Word := 1 ||| ctrlWord en

/-- A command word in CMD, the core idle and out of reset, and a START of it as the next host operation (R90, R230;
DESIGN CHOICE, log entry 22). -/
def placeCommand (w : Word) (s : State) : State :=
  { s with regs := { s.regs with cmd := w }
           status := { s.status with busy := false }
           rst := false
           host := .regWrite 0x00C 4 (startWord s.irqEn) :: s.host
           turns := .host :: s.turns }

end Sys2Proof.Machine
end

