-- ==== Sys2Proof/Machine/Step.lean ====
section
/-! DEFINITION. One step of the machine: one host operation, or the end of the running command (R19, R75, R290). -/

namespace Sys2Proof.Machine

/-- One step: what `nextAction` says, a command being run by `exec`. -/
def step (s : State) : Host.Outcome State Fault Refusal :=
  match nextAction s with
  | .settle t => .next t
  | .stop f => .fault f
  | .run i t => exec i t

/-- The state with a command placed where the next step fetches it: in CMD, with its START as the host's next
operation. The table's words have 32 bits (R90). -/
def State.withFetchWord (s : State) (nbits w : Nat) : State :=
  placeCommand (BitVec.ofNat 32 (w % 2 ^ nbits)) s

end Sys2Proof.Machine
end

