-- ==== Sys2Proof/Safety.lean ====
section
/-! DEFINITION. What claims about the machine are stated in: the invariant of every run, the conditions under which a
command runs undisturbed, and what it may change. -/

namespace Sys2Proof.Machine

/-! ### The invariant -/

/-- While RST is asserted the core is in the reset state (R39, R270). -/
def State.HeldInReset (s : State) : Prop :=
  s.rst = true → s.irqEn = false ∧ s.status = Status.reset ∧ s.regs = CmdRegs.reset ∧ s.erraddr = 0

/-- The scratch store has MAX_H rows of MAX_W samples in both buffers (R35). -/
def Scratch.shaped (b : Build) (sc : Scratch) : Prop :=
  (sc.sa.length = b.maxH.toNat ∧ ∀ r ∈ sc.sa, r.length = b.maxW.toNat) ∧
  (sc.sb.length = b.maxH.toNat ∧ ∀ r ∈ sc.sb, r.length = b.maxW.toNat)

/-- What holds while BUSY = 1 (R25, R202, R231, R232, R281): a validated command runs, its flags are clear, EFF_VW
reports its width, and every register that was copied still reads what the snapshot holds. -/
def State.RunningRight (s : State) : Prop :=
  s.status.busy = true →
    s.snap = s.regs ∧ s.status.done = false ∧ s.status.err = false ∧ s.status.errcode = 0 ∧ s.erraddr = 0 ∧
    ∃ i, i ≠ .nop ∧ decode s.snap.cmd = .ok i ∧ validate s.build i s.snap = none ∧
      s.status.effVw = effectiveVw s.build s.snap

/-- The invariant of the machine: host memory is canonical, IRQ is the level of R38, a running command is right, the
scratch store has its shape, and RST holds the core in the reset state. -/
structure State.Inv (s : State) : Prop where
  memory : Mem.wf s.mem
  interrupt : s.irq = (s.irqEn && (s.status.done || s.status.err))
  running : s.RunningRight
  scratch : s.scratch.shaped s.build
  held : s.HeldInReset

/-! ### Conditions of a run -/

/-- The core is idle and the registers hold a configuration that passes every check for the command (R232, R233). -/
def Ready (op : Instr) (s : State) : Prop :=
  s.status.busy = false ∧ validate s.build op s.regs = none

/-- The command runs: BUSY, with a snapshot that passed every check (R232), over canonical memory. -/
def Running (op : Instr) (s : State) : Prop :=
  s.status.busy = true ∧ validate s.build op s.snap = none ∧ Mem.wf s.mem

/-- `BusErr` holds for no byte of any sample access of the command (R241). -/
def NoBusError (op : Instr) (s : State) : Prop :=
  ∀ k ∈ usedSlots op s.snap, ∀ y < s.snap.rows, ∀ x < s.snap.cols, ∀ j < s.snap.unit,
    s.build.busErrAt ((s.snap.desc k).addr s.snap.unit y x + j) = false

/-- Every sample the command reads is in 0 .. P (R65). -/
def InputsInRange (op : Instr) (s : State) : Prop :=
  ∀ k ∈ inputSlots op s.snap, ∀ y < s.snap.rows, ∀ x < s.snap.cols,
    sample s.mem (s.snap.desc k) s.snap.unit y x ≤ s.snap.peak

/-- No used extent reaches the register window (R61). -/
def AwayFromWindow (op : Instr) (s : State) : Prop :=
  ∀ k ∈ usedSlots op s.snap, ((s.snap.desc k).extent s.snap.unit).meets (registerWindow s.build) = false

/-- Nothing disturbs the command: no bus error, inputs in range, the window not reached, the host's duties kept (R75). -/
def Undisturbed (op : Instr) (s : State) : Prop :=
  NoBusError op s ∧ InputsInRange op s ∧ AwayFromWindow op s ∧ s.breached = false

/-! ### What a command may change -/

/-- Every register a host can read but STATUS, and all of the model's own input, is unchanged. -/
structure RegistersKept (s t : State) : Prop where
  build : t.build = s.build
  irqEn : t.irqEn = s.irqEn
  rst : t.rst = s.rst
  regs : t.regs = s.regs
  erraddr : t.erraddr = s.erraddr
  snap : t.snap = s.snap
  host : t.host = s.host
  turns : t.turns = s.turns
  readData : t.readData = s.readData

/-- The command ended with DONE (R241): BUSY cleared, DONE set, no other bit of STATUS changed, IRQ at its level. -/
structure EndedDone (s t : State) : Prop where
  kept : RegistersKept s t
  status : t.status = { s.status with busy := false, done := true }
  irq : t.irq = s.irqEn

/-- Every byte of host memory outside the destination cells reads as before (R69). -/
def OnlyDestCells (S : CmdRegs) (m m' : Mem) : Prop :=
  ∀ a, S.d3.inCells S.unit a = false → Mem.read m' a = Mem.read m a

/-- The destination samples hold the given values (R15, R75). -/
def DestHolds (S : CmdRegs) (m : Mem) (f : Nat → Nat → Int) : Prop :=
  ∀ y < S.rows, ∀ x < S.cols, (sample m S.d3 S.unit y x : Int) = f y x

/-- A BUSY command ends with DONE, its destination plane holding the given values and no other byte changed (R75,
R241). -/
def EndsWith (op : Instr) (s : State) (f : Nat → Nat → Int) : Prop :=
  ∃ t, exec op s = .next t ∧ EndedDone s t ∧ OnlyDestCells s.snap s.mem t.mem ∧ DestHolds s.snap t.mem f

/-- An accepted START touches nothing but what R230 to R232 name: host memory, the scratch store, the copied
registers, IRQ_EN, WDROP and the model's own input stay. -/
structure StartKept (s t : State) : Prop where
  build : t.build = s.build
  irqEn : t.irqEn = s.irqEn
  rst : t.rst = s.rst
  wdrop : t.status.wdrop = s.status.wdrop
  regs : t.regs = s.regs
  scratch : t.scratch = s.scratch
  mem : t.mem = s.mem
  host : t.host = s.host
  turns : t.turns = s.turns
  readData : t.readData = s.readData

/-! ### The kernels as formulas on samples -/

/-- A plane value as a function of row and column (R15, R17). -/
abbrev Samples := Nat → Nat → Int

/-- The input plane of a slot as host memory holds it (R15). -/
def inputAt (s : State) (k : Slot) : Samples := fun y x => sample s.mem (s.snap.desc k) s.snap.unit y x

/-- The 3-tap formula on a column of height h (R123). -/
def threeTap (h : Nat) (X : Samples) : Samples := fun y x =>
  (X (reflRow ((y : Int) - 1) h) x + 2 * X y x + X (reflRow ((y : Int) + 1) h) x + 2) / 4

/-- The 5-tap formula on a column of height h (R125). -/
def fiveTap (h : Nat) (X : Samples) : Samples := fun y x =>
  (X (reflRow ((y : Int) - 2) h) x + 4 * (X (reflRow ((y : Int) - 1) h) x + X (reflRow ((y : Int) + 1) h) x) + 6 * X y x
    + X (reflRow ((y : Int) + 2) h) x + 8) / 16

/-- The residual formula at a depth (R140). -/
def difference (mid peak : Nat) (X Y : Samples) : Samples := fun y x => clamp (X y x - Y y x + mid) 0 peak

/-- The restorer: local mean, residual, blurred residual, decision (R150). -/
def restored (h mid peak : Nat) (X : Samples) : Samples :=
  let res := difference mid peak X (threeTap h X)
  fun y x => sbrPixel mid (X y x) (res y x) (threeTap h res y x)

/-- Buffer A of the pipeline (R205). -/
def bufferA (S : CmdRegs) (X : Samples) : Samples :=
  if S.mode = 0 then threeTap S.rows X else restored S.rows S.mid S.peak X

end Sys2Proof.Machine
end

