-- ==== Sys2Proof/Certificates/Slice0/Obligations.lean ====
section
/-! DEFINITION. What is to be proved of the VINV core, stated from the numbered rules of spec/. -/

open Sys2Proof Sys2Proof.Machine

/-! ### Encoding -/

/-- R99, every 32-bit value: a set bit of [31:4] is illegal, and else OP alone decides, as the opcode map says. -/
def Obligations.DecoderFollowsTheOpcodeMap : Prop :=
  ∀ w : Word,
    (16 ≤ w.toNat → decode w = .error .reservedBits) ∧
    (w.toNat = 0 → decode w = .ok .nop) ∧ (w.toNat = 1 → decode w = .ok .blur3) ∧
    (w.toNat = 2 → decode w = .ok .blur5) ∧ (w.toNat = 3 → decode w = .ok .resid) ∧
    (w.toNat = 4 → decode w = .ok .sbr) ∧ (w.toNat = 5 → decode w = .ok .final) ∧
    (w.toNat = 6 → decode w = .ok .filter) ∧
    (7 ≤ w.toNat → w.toNat ≤ 15 → decode w = .error .reservedOpcode)

/-- Decode and encode agree on all words (R90 to R92): a word decodes to a command exactly when it is that command's
encoding, so no bit of the word is dropped and every command is reachable. -/
def Obligations.DecodeAndEncodeAgree : Prop :=
  ∀ (w : Word) (i : Instr), decode w = .ok i ↔ w = encode i

/-- The well-formed words are exactly those that decode to a command (R26, R98). -/
def Obligations.WellFormedWordsAreTheCommands : Prop :=
  ∀ w : Word, wellFormedWord w = true ↔ ∃ i, decode w = .ok i

/-- A few words written out from the opcode map (R92). -/
def Obligations.WrittenWordsDecode : Prop :=
  decode 0x00000000 = .ok .nop ∧ decode 0x00000001 = .ok .blur3 ∧ decode 0x00000003 = .ok .resid ∧
  decode 0x00000006 = .ok .filter ∧ decode 0x00000007 = .error .reservedOpcode ∧
  decode 0x00000011 = .error .reservedBits

/-- R95, R96, R200: the fields of CFG, the depth constants U, H, P and the radius A, which are the blend's parameters
beside SSTR and SCL (R170). R97: a word of either is the binary32 value of its sign, exponent and fraction, held in units
of 2^-149, for every finite word. -/
def Obligations.ConfigurationFieldsSitAsMapped : Prop :=
  (∀ S : CmdRegs,
    let bits := S.cfg.toNat % 32
    S.bits = bits ∧ S.mode = S.cfg.toNat / 32 % 4 ∧ (S.eclip = true ↔ S.cfg.toNat / 128 % 2 = 1) ∧
    S.vw = S.cfg.toNat / 256 % 16 ∧ S.unit = (if bits = 8 then 1 else 2) ∧ S.mid = 2 ^ (bits - 1) ∧
    S.peak = 2 ^ bits - 1 ∧
    S.blend = { eclip := S.eclip, sstr := f32OfWord S.sstr, scl := f32OfWord S.scl, peak := 2 ^ bits - 1,
                radius := if S.amnt.toNat = 0 then 2 ^ bits - 1 else S.amnt.toNat }) ∧
  ∀ w : Word,
    let sign : Nat := w.toNat / 2 ^ 31
    let e : Nat := w.toNat / 2 ^ 23 % 256
    let f : Nat := w.toNat % 2 ^ 23
    (e = 0 → (f32OfWord w : ℚ) / 2 ^ 149 = (-1) ^ sign * ((2 : ℚ) ^ (-126 : Int) * ((f : ℚ) / 2 ^ 23))) ∧
    (1 ≤ e → e ≤ 254 →
      (f32OfWord w : ℚ) / 2 ^ 149 = (-1) ^ sign * ((2 : ℚ) ^ ((e : Int) - 127) * (1 + (f : ℚ) / 2 ^ 23)))

/-! ### Steps -/

/-- A START on the idle core, RST released: when CMD decodes to a command, the step is `exec` of it, on the state
after the host operation is taken off, the turn is used and IRQ_EN has its written value (R24, R230). -/
def Obligations.StartStepRunsTheDecodedCommand : Prop :=
  ∀ (s : State) (v : Word) (rest : List HostOp) (i : Instr),
    s.rst = false → s.status.busy = false → mover s = .host → s.host = .regWrite 0x00C 4 v :: rest →
    v[0] = true → v[1] = false → decode s.regs.cmd = .ok i →
    step s = exec i ({ s with turns := s.turns.tail, host := rest }.setIrqEn v[2])

/-- The core's turn while BUSY: the step is `exec` of the command the snapshot holds, on the state with the turn used
(R75, R231). -/
def Obligations.CoreStepEndsTheSnapshotCommand : Prop :=
  ∀ (s : State) (i : Instr),
    s.status.busy = true → mover s = .core → decode s.snap.cmd = .ok i →
    step s = exec i { s with turns := s.turns.tail }

/-- A command placed by `withFetchWord` (log entry 22) is what the very next step runs: on s with RST released, the core
idle, the word in CMD and IRQ at its level, and with nothing else changed (R38, R90, R230). -/
def Obligations.PlacedCommandRunsNext : Prop :=
  ∀ (s : State) (i : Instr),
    step (s.withFetchWord 32 (encode i).toNat) =
      exec i { s with rst := false, regs := { s.regs with cmd := encode i },
                      status := { s.status with busy := false },
                      irq := s.irqEn && (s.status.done || s.status.err) }

/-- Starting an illegal command word ends at once with ILLEGAL_CMD and touches no memory (R98, R232). -/
def Obligations.IllegalWordFailsAtStart : Prop :=
  ∀ (s : State) (v : Word) (e : Illegal),
    s.rst = false → s.status.busy = false → v[0] = true → v[1] = false → decode s.regs.cmd = .error e →
    ∃ t, portWrite 0x00C 4 v s = .settle t ∧
      t.status = { s.status with busy := false, done := false, err := true, errcode := 1 } ∧
      t.erraddr = 0 ∧ t.snap = s.regs ∧ t.mem = s.mem ∧ t.scratch = s.scratch ∧ t.regs = s.regs ∧
      t.irqEn = v[2] ∧ t.irq = v[2]

/-! ### START -/

/-- R231 for every command: the accepted START copies CMD, CFG, AMNT, SSTR, SCL and D0..D3 into the snapshot, whether or
not a check then fails. -/
def Obligations.StartCopiesRegistersIntoTheSnapshot : Prop :=
  ∀ (i : Instr) (s : State), s.status.busy = false →
    ∃ t, exec i s = .next t ∧ t.snap = s.regs ∧ StartKept s t

/-- R206: NOP on the idle core ends at once with DONE, whatever the configuration; EFF_VW and WDROP stay. -/
def Obligations.NopEndsAtOnceWithDone : Prop :=
  ∀ s : State, s.status.busy = false →
    ∃ t, exec .nop s = .next t ∧
      t.status = { s.status with busy := false, done := true, err := false, errcode := 0 } ∧
      t.erraddr = 0 ∧ t.irq = s.irqEn ∧ StartKept s t

/-- R232: a START that passes every check sets BUSY and EFF_VW and clears DONE, ERR, ERRCODE and ERRADDR. -/
def Obligations.ValidStartSetsBusy : Prop :=
  ∀ (op : Instr) (s : State), op ≠ .nop → Ready op s →
    ∃ t, exec op s = .next t ∧
      t.status = { busy := true, done := false, err := false, wdrop := s.status.wdrop, errcode := 0,
                   effVw := effectiveVw s.build s.regs } ∧
      t.erraddr = 0 ∧ t.irq = false ∧ StartKept s t

/-- R232, R244: a START that fails a check reports that check's code; BUSY stays 0 and EFF_VW and memory are
unchanged. -/
def Obligations.FailedStartReportsItsCode : Prop :=
  ∀ (op : Instr) (s : State) (c : ErrCode), op ≠ .nop → s.status.busy = false → validate s.build op s.regs = some c →
    ∃ t, exec op s = .next t ∧
      t.status = { s.status with done := false, err := true, errcode := c.num } ∧
      t.erraddr = 0 ∧ t.irq = s.irqEn ∧ StartKept s t

/-- R233, R235: codes 2 to 6 in their order, each condition written out; the first that applies is the one reported. -/
def Obligations.FirstFailingCheckIsReported : Prop :=
  ∀ (b : Build) (op : Instr) (S : CmdRegs),
    let config : Prop :=
      S.cfg.toNat / 4096 ≠ 0 ∨ S.bits ∉ [8, 10, 12, 14, 16] ∨ S.mode = 2 ∨ S.mode = 3 ∨ 4 < S.vw ∨
        (1 ≤ S.vw ∧ b.vwSupported.getLsbD (S.vw - 1) = false) ∨ S.amnt.toNat / 65536 ≠ 0 ∨ S.peak < S.amnt.toNat ∨
        S.sstr.toNat / 2 ^ 23 % 256 = 255 ∨ S.scl.toNat / 2 ^ 23 % 256 = 255
    let geometry : Prop :=
      ∃ k ∈ usedSlots op S, (S.desc k).width ≠ S.d3.width ∨ (S.desc k).height ≠ S.d3.height ∨
        (S.desc k).pitch.toNat < (S.desc k).width.toNat * S.unit ∨
        ((S.desc k).width ≠ 0 ∧ (S.desc k).height ≠ 0 ∧
          2 ^ 32 < (S.desc k).base.toNat + ((S.desc k).height.toNat - 1) * (S.desc k).pitch.toNat
            + (S.desc k).width.toNat * S.unit)
    let align : Prop :=
      S.unit = 2 ∧ ∃ k ∈ usedSlots op S, (S.desc k).base.toNat % 2 = 1 ∨ (S.desc k).pitch.toNat % 2 = 1
    let capacity : Prop :=
      (op = .sbr ∨ op = .filter) ∧ (b.maxW.toNat < S.d3.width.toNat ∨ b.maxH.toNat < S.d3.height.toNat)
    let overlap : Prop :=
      ∃ k ∈ inputSlots op S, ∃ a, ((S.desc k).extent S.unit).has a = true ∧ (S.d3.extent S.unit).has a = true
    (validate b op S = some .config ↔ config) ∧
    (validate b op S = some .geometry ↔ ¬config ∧ geometry) ∧
    (validate b op S = some .align ↔ ¬config ∧ ¬geometry ∧ align) ∧
    (validate b op S = some .capacity ↔ ¬config ∧ ¬geometry ∧ ¬align ∧ capacity) ∧
    (validate b op S = some .overlap ↔ ¬config ∧ ¬geometry ∧ ¬align ∧ ¬capacity ∧ overlap) ∧
    (validate b op S = none ↔ ¬config ∧ ¬geometry ∧ ¬align ∧ ¬capacity ∧ ¬overlap)

/-- R202: the forced width when its code is given, and for auto the largest built code. -/
def Obligations.EffectiveWidthIsForcedOrWidest : Prop :=
  ∀ (b : Build) (S : CmdRegs), vwLegal b S.vw = true →
    (S.vw ≠ 0 → (effectiveVw b S).toNat = S.vw) ∧
    (S.vw = 0 → 1 ≤ (effectiveVw b S).toNat ∧ b.vwSupported.getLsbD ((effectiveVw b S).toNat - 1) = true ∧
      ∀ k, k < 4 → b.vwSupported.getLsbD k = true → k + 1 ≤ (effectiveVw b S).toNat)

/-! ### The commands' results -/

/-- R123, R124: BLUR3 replaces every destination sample by the 3-tap average of D0's column, and no other byte. -/
def Obligations.Blur3WritesThreeTapAverages : Prop :=
  ∀ s : State, Running .blur3 s → Undisturbed .blur3 s →
    EndsWith .blur3 s (threeTap s.snap.rows (inputAt s .d0))

/-- R125, R126: BLUR5 writes the 5-tap average of D0's column. -/
def Obligations.Blur5WritesFiveTapAverages : Prop :=
  ∀ s : State, Running .blur5 s → Undisturbed .blur5 s →
    EndsWith .blur5 s (fiveTap s.snap.rows (inputAt s .d0))

/-- R140, R141: RESID writes the clamped biased difference of D0 and D1. -/
def Obligations.ResidWritesClampedDifferences : Prop :=
  ∀ s : State, Running .resid s → Undisturbed .resid s →
    EndsWith .resid s fun y x =>
      min (max (inputAt s .d0 y x - inputAt s .d1 y x + 2 ^ (s.snap.bits - 1)) 0) (2 ^ s.snap.bits - 1)

/-- R150, R154: SBR writes the restored plane of D0. -/
def Obligations.SbrWritesTheRestoredPlane : Prop :=
  ∀ s : State, Running .sbr s → Undisturbed .sbr s →
    EndsWith .sbr s (restored s.snap.rows s.snap.mid s.snap.peak (inputAt s .d0))

/-- R180, R181: FINAL writes the blend of D0, D1 and D2. -/
def Obligations.FinalWritesTheBlend : Prop :=
  ∀ s : State, Running .final s → Undisturbed .final s →
    EndsWith .final s fun y x =>
      s.snap.blend.pixel (inputAt s .d0 y x) (inputAt s .d1 y x) (inputAt s .d2 y x)

/-- R205: FILTER blends D0 with buffer A and, without the external reference, with the 5-tap blur of buffer A; with it,
with D1. -/
def Obligations.FilterRunsThePipeline : Prop :=
  ∀ s : State, Running .filter s → Undisturbed .filter s →
    let A := bufferA s.snap (inputAt s .d0)
    EndsWith .filter s fun y x =>
      s.snap.blend.pixel (inputAt s .d0 y x) (A y x)
        (if s.snap.eclip then inputAt s .d1 y x else fiveTap s.snap.rows A y x)

/-- R234: a validated command on an empty plane performs no memory access, since every used plane is then empty, and
ends with DONE. -/
def Obligations.EmptyPlaneEndsWithDone : Prop :=
  ∀ (op : Instr) (s : State), op ≠ .nop → Running op s → s.snap.d3.width = 0 ∨ s.snap.d3.height = 0 →
    (∀ k ∈ usedSlots op s.snap, (s.snap.desc k).width = 0 ∨ (s.snap.desc k).height = 0) ∧
    runAccesses op s.snap = [] ∧ ∃ t, exec op s = .next t ∧ EndedDone s t ∧ t.mem = s.mem

/-- R65, R77, R242: without a bus error a command ends with DONE whatever the sample values and whatever the host did
to its planes, and only destination cells may have changed. -/
def Obligations.NoDataDependentError : Prop :=
  ∀ (op : Instr) (s : State), op ≠ .nop → Running op s → NoBusError op s → AwayFromWindow op s →
    ∃ t, exec op s = .next t ∧ EndedDone s t ∧ OnlyDestCells s.snap s.mem t.mem

/-- R240: a bus error ends the command with code 7, ERRADDR the start of one erroneous access, and nothing but
destination cells changed. -/
def Obligations.BusErrorReportsOneFailingAccess : Prop :=
  ∀ (op : Instr) (s : State), op ≠ .nop → Running op s → AwayFromWindow op s → ¬NoBusError op s →
    ∃ t, exec op s = .next t ∧
      t.status = { s.status with busy := false, err := true, errcode := 7 } ∧ t.irq = s.irqEn ∧
      (∃ k ∈ usedSlots op s.snap, ∃ y < s.snap.rows, ∃ x < s.snap.cols, ∃ j < s.snap.unit,
        s.build.busErrAt ((s.snap.desc k).addr s.snap.unit y x + j) = true ∧
        t.erraddr.toNat = (s.snap.desc k).addr s.snap.unit y x) ∧
      t.regs = s.regs ∧ t.snap = s.snap ∧ t.irqEn = s.irqEn ∧ OnlyDestCells s.snap s.mem t.mem

/-- R61 (log entry 10): a command whose extents reach the register window ends; BUSY is cleared, and no byte outside the
destination cells changes. Nothing is said of the registers, whose values are unspecified. -/
def Obligations.WindowCommandStillEnds : Prop :=
  ∀ (op : Instr) (s : State), op ≠ .nop → Running op s → ¬AwayFromWindow op s →
    ∃ t, exec op s = .next t ∧ t.status.busy = false ∧ t.build = s.build ∧ OnlyDestCells s.snap s.mem t.mem

/-- R69: whatever way a running command ends, every byte of every input extent reads as before. -/
def Obligations.InputPlanesAreNeverWritten : Prop :=
  ∀ (op : Instr) (s t : State), op ≠ .nop → Running op s → exec op s = .next t →
    ∀ k ∈ inputSlots op s.snap, ∀ a, ((s.snap.desc k).extent s.snap.unit).has a = true →
      Mem.read t.mem a = Mem.read s.mem a

/-- The frame of every command's end away from the register window: the registers but STATUS and ERRADDR, the
snapshot and the model's input are unchanged, of STATUS only BUSY, DONE, ERR and ERRCODE may change, ERRADDR changes
only with code 7 (R31), and only destination cells of memory may change. -/
def Obligations.CommandEndFrame : Prop :=
  ∀ (op : Instr) (s t : State), op ≠ .nop → s.status.busy = true → AwayFromWindow op s → exec op s = .next t →
    t.build = s.build ∧ t.irqEn = s.irqEn ∧ t.rst = s.rst ∧ t.regs = s.regs ∧ t.snap = s.snap ∧ t.host = s.host ∧
    t.turns = s.turns ∧ t.readData = s.readData ∧ t.status.wdrop = s.status.wdrop ∧ t.status.effVw = s.status.effVw ∧
    (t.status.errcode ≠ 7 → t.erraddr = s.erraddr) ∧ OnlyDestCells s.snap s.mem t.mem

/-- R203: two runs whose configurations differ only in CFG.VW and in the built widths write the same memory. -/
def Obligations.VectorWidthChangesNoResult : Prop :=
  ∀ (op : Instr) (s s' t t' : State), op ≠ .nop →
    Running op s → Running op s' → Undisturbed op s → Undisturbed op s' → s'.mem = s.mem →
    s'.snap.bits = s.snap.bits → s'.snap.mode = s.snap.mode → s'.snap.eclip = s.snap.eclip →
    s'.snap.amnt = s.snap.amnt → s'.snap.sstr = s.snap.sstr → s'.snap.scl = s.snap.scl →
    (∀ k, s'.snap.desc k = s.snap.desc k) →
    exec op s = .next t → exec op s' = .next t' → t'.mem = t.mem

/-! ### The kernels -/

/-- R121, its values of Refl at the rows the kernels reach, for every height. -/
def Obligations.ReflectionReachesTheseRows : Prop :=
  ∀ h : Nat,
    (3 ≤ h → reflRow (-1) h = 1 ∧ reflRow (-2) h = 2 ∧ reflRow h h = h - 2 ∧ reflRow ((h : Int) + 1) h = h - 3 ∧
      ∀ i : Nat, i < h → reflRow i h = i) ∧
    (h = 2 → reflRow (-2) h = 0 ∧ reflRow (-1) h = 1 ∧ reflRow 2 h = 0 ∧ reflRow 3 h = 1) ∧
    (h = 1 → ∀ i : Int, reflRow i h = 0)

/-- R120: reflection is even, has period 2(h - 1), and always lands in the plane. -/
def Obligations.ReflectionStaysInThePlane : Prop :=
  ∀ (h : Nat) (i : Int), 2 ≤ h →
    reflRow i h < h ∧ reflRow (-i) h = reflRow i h ∧ reflRow (i + 2 * ((h : Int) - 1)) h = reflRow i h

/-- R127, at every depth: for samples in 0 .. P the sums before the shifts are in 2 .. 4P + 2 and 8 .. 16P + 8, which
accumulators of bits + 2 and bits + 4 bits hold, and the results are in 0 .. P. -/
def Obligations.BlursNeverExceedThePeak : Prop :=
  ∀ (bits h : Nat) (P : Int) (X : Samples), P = 2 ^ bits - 1 → (∀ y x, 0 ≤ X y x ∧ X y x ≤ P) → ∀ y x : Nat,
    let row (k : Int) : Int := X (reflRow ((y : Int) + k) h) x
    let sum3 := row (-1) + 2 * X y x + row 1 + 2
    let sum5 := row (-2) + 4 * (row (-1) + row 1) + 6 * X y x + row 2 + 8
    (2 ≤ sum3 ∧ sum3 ≤ 4 * P + 2 ∧ sum3 < 2 ^ (bits + 2)) ∧ (8 ≤ sum5 ∧ sum5 ≤ 16 * P + 8 ∧ sum5 < 2 ^ (bits + 4)) ∧
    threeTap h X y x = sum3 / 4 ∧ fiveTap h X y x = sum5 / 16 ∧
    (0 ≤ threeTap h X y x ∧ threeTap h X y x ≤ P) ∧ (0 ≤ fiveTap h X y x ∧ fiveTap h X y x ≤ P)

/-- R142: the residual of samples in 0 .. P is in 0 .. P; with P = 2H - 1 its unclamped value is in -(H - 1) .. 3H - 1,
which a signed accumulator of bits + 2 bits holds, and the un-biased residual is in -H .. H - 1. -/
def Obligations.ResidualRangeLaw : Prop :=
  ∀ (bits H x y : Nat), 1 ≤ bits → H = 2 ^ (bits - 1) → x ≤ 2 * H - 1 → y ≤ 2 * H - 1 →
    let sum : Int := (x : Int) - y + H
    residSample H (2 * H - 1) x y ≤ 2 * H - 1 ∧
    -((H : Int) - 1) ≤ sum ∧ sum ≤ 3 * (H : Int) - 1 ∧ -2 ^ (bits + 1) ≤ sum ∧ sum < 2 ^ (bits + 1) ∧
    -(H : Int) ≤ (residSample H (2 * H - 1) x y : Int) - H ∧
    (residSample H (2 * H - 1) x y : Int) - H ≤ (H : Int) - 1

/-- R151, R152: keep when the two signals have opposite signs, else subtract the smaller, else the heavy correction. -/
def Obligations.RestorerDecidesBySigns : Prop :=
  ∀ (H : Nat) (s r q : Int),
    ((r < q ∧ (H : Int) < r ∨ q < r ∧ r < (H : Int)) → sbrPixel H s r q = s) ∧
    (¬(r < q ∧ (H : Int) < r ∨ q < r ∧ r < (H : Int)) → |r - q| < |r - H| → sbrPixel H s r q = s - (r - q)) ∧
    (¬(r < q ∧ (H : Int) < r ∨ q < r ∧ r < (H : Int)) → |r - H| ≤ |r - q| → sbrPixel H s r q = s - (r - H))

/-- R153: for samples in 0 .. P, with P = 2H - 1, the restorer's output is in 0 .. P without saturation, and the clamp of
its residual never engages. -/
def Obligations.RestorerNeedsNoSaturation : Prop :=
  ∀ (h H : Nat) (X : Samples), 1 ≤ H → (∀ y x, 0 ≤ X y x ∧ X y x ≤ 2 * (H : Int) - 1) → ∀ y x,
    -(H : Int) ≤ X y x - threeTap h X y x ∧ X y x - threeTap h X y x ≤ (H : Int) - 1 ∧
    difference H (2 * H - 1) X (threeTap h X) y x - H = X y x - threeTap h X y x ∧
    0 ≤ restored h H (2 * H - 1) X y x ∧ restored h H (2 * H - 1) X y x ≤ 2 * (H : Int) - 1

/-- R186 and the flat-input property: a uniform plane is unchanged by both blurs and by the restorer. -/
def Obligations.FlatPlaneIsUnchanged : Prop :=
  ∀ (h H : Nat) (c : Int), 1 ≤ H → 0 ≤ c → c ≤ 2 * (H : Int) - 1 → ∀ y x,
    threeTap h (fun _ _ => c) y x = c ∧ fiveTap h (fun _ _ => c) y x = c ∧
    restored h H (2 * H - 1) (fun _ _ => c) y x = c

/-- R180: for a source sample in 0 .. P the blend lies in the envelope of R179, which lies in 0 .. P. -/
def Obligations.BlendStaysInTheEnvelope : Prop :=
  ∀ (p : Blend) (s b r : Int), 0 ≤ s → s ≤ p.peak →
    max (s - p.radius) 0 ≤ p.pixel s b r ∧ p.pixel s b r ≤ min (s + p.radius) p.peak ∧
    0 ≤ p.pixel s b r ∧ p.pixel s b r ≤ p.peak

/-- R182: in plain mode at 8 bits the lookup table gives the output of the formula for every triple of samples. -/
def Obligations.LookupTableIsInvisible : Prop :=
  ∀ (p : Blend) (s b r : Nat), p.eclip = false → p.peak = 255 → s ≤ 255 → b ≤ 255 → r ≤ 255 →
    clamp ((b : Int) + p.lutEntry (s + 255 - b) (b + 255 - r)) (max ((s : Int) - p.radius) 0)
      (min ((s : Int) + p.radius) 255) = p.pixel s b r

/-- R185: in plain mode with the full radius, signals of one sign leave the output between b3 and the source. -/
def Obligations.AgreeingSignalsStayBetween : Prop :=
  ∀ (p : Blend) (s b r : Int), p.eclip = false → p.radius = p.peak → 0 ≤ s → s ≤ p.peak → 0 ≤ b → b ≤ p.peak →
    (0 < s - b ∧ (p.signal s b r = .inf false ∨ ∃ k, 0 < k ∧ p.signal s b r = .fin k)) ∨
      (s - b < 0 ∧ (p.signal s b r = .inf true ∨ ∃ k, k < 0 ∧ p.signal s b r = .fin k)) →
    min b s ≤ p.pixel s b r ∧ p.pixel s b r ≤ max b s

/-- R186: equal samples are unchanged, and in plain mode with `sstr = 0` or equal references the output is b3 clamped
to the envelope, which is b3 itself at the full radius. -/
def Obligations.NoSignalGivesTheReference : Prop :=
  ∀ (p : Blend) (s b r : Int), 0 ≤ s → s ≤ p.peak →
    (s = b → b = r → p.pixel s b r = s) ∧
    (p.eclip = false → p.sstr = 0 ∨ b = r →
      p.pixel s b r = clamp b (max (s - p.radius) 0) (min (s + p.radius) p.peak) ∧
      (p.radius = p.peak → 0 ≤ b → b ≤ p.peak → p.pixel s b r = b))

/-- R171 to R180, branch by branch, finite binary32 values in units of 2^-149 and a product being `f32Mul`: the second
signal t, the signal da of strictly smaller magnitude, its attenuation by scl when the signs disagree, the truncation of
the correction toward zero, the base and the envelope; an infinite correction goes to the bound on its side. -/
def Obligations.BlendFollowsTheFormula : Prop :=
  ∀ (p : Blend) (s b r : Int),
    let one : Int := 2 ^ 149
    let d1 := (s - b) * one
    let t : F32 := if p.eclip = true then .fin ((s - r) * one) else f32Mul ((b - r) * one) p.sstr
    let base := if p.eclip = true then r else b
    let lo := max (s - p.radius) 0
    let hi := min (s + p.radius) p.peak
    let endsWith (add : F32) : Prop :=
      (∀ k, add = .fin k → ∃ corr : Int,
        |corr| * one ≤ |k| ∧ |k| < (|corr| + 1) * one ∧ 0 ≤ corr * k ∧
        p.pixel s b r = min (max (base + corr) lo) hi) ∧
      (add = .inf false → p.pixel s b r = hi) ∧ (add = .inf true → p.pixel s b r = lo)
    (∀ k, t = .fin k →
      let da := if |d1| < |k| then d1 else k
      (d1 < 0 ∧ 0 < k ∨ 0 < d1 ∧ k < 0 → endsWith (f32Mul da p.scl)) ∧
      (¬(d1 < 0 ∧ 0 < k ∨ 0 < d1 ∧ k < 0) → endsWith (.fin da))) ∧
    (∀ neg, t = .inf neg →
      (d1 < 0 ∧ neg = false ∨ 0 < d1 ∧ neg = true → endsWith (f32Mul d1 p.scl)) ∧
      (¬(d1 < 0 ∧ neg = false ∨ 0 < d1 ∧ neg = true) → endsWith (.fin d1)))

/-- R171 to R180 with an external reference and the reset value of SCL, 0.25, in integers: the smaller difference,
quartered toward zero when the differences disagree in sign, is added to the clip sample and clamped. -/
def Obligations.ExternalBlendInIntegers : Prop :=
  ∀ (p : Blend) (s b r : Int), p.eclip = true → p.scl = f32OfWord 0x3E800000 →
    0 ≤ s → s ≤ 65535 → 0 ≤ b → b ≤ 65535 → 0 ≤ r → r ≤ 65535 →
    let da := if |s - b| < |s - r| then s - b else s - r
    let corr := if (s < b ∧ r < s) ∨ (b < s ∧ s < r) then da.tdiv 4 else da
    p.pixel s b r = min (max (r + corr) (max (s - p.radius) 0)) (min (s + p.radius) p.peak)

/-- R13 for every product of two finite values: the exact magnitude fixes the unit in the last place, 2^d in units of
2^-149, as the one that leaves it 24 significant bits (or as 2^-149 itself); q of these units, within half a unit of the
exact product and even on a tie, with the exact product's sign, is the product; a rounded magnitude of 2^128 or more is an
infinity of that sign. -/
def Obligations.ProductsRoundToNearestEven : Prop :=
  ∀ a b : Int, ∃ q d : Nat,
    let n := (a * b).natAbs
    let unit := 2 ^ (149 + d)
    n < 2 ^ 24 * unit ∧ (d ≠ 0 → 2 ^ 23 * unit ≤ n) ∧
    2 * (n - q * unit) ≤ unit ∧ 2 * (q * unit - n) ≤ unit ∧
    (2 * (n - q * unit) = unit ∨ 2 * (q * unit - n) = unit → q % 2 = 0) ∧
    (q * 2 ^ d < 2 ^ 128 * 2 ^ 149 →
      f32Mul a b = .fin (if a * b < 0 then -((q * 2 ^ d : Nat) : Int) else ((q * 2 ^ d : Nat) : Int))) ∧
    (2 ^ 128 * 2 ^ 149 ≤ q * 2 ^ d → f32Mul a b = .inf (decide (a * b < 0)))

/-- R13: a product that binary32 holds exactly is not changed by the rounding. -/
def Obligations.ExactProductsAreNotRounded : Prop :=
  ∀ (a b : Int) (m e : Nat), (a * b).natAbs = m * 2 ^ (149 + e) → m < 2 ^ 24 → e ≤ 253 →
    f32Mul a b = .fin (if a * b < 0 then -((m * 2 ^ e : Nat) : Int) else ((m * 2 ^ e : Nat) : Int))

/-! ### The register port and the host -/

/-- What each register reads (R21 to R31), the fields of STATUS at their places (R25); descriptor k's register f lies at
offset 0x040 + 16k + 4f, in the order BASE, PITCH, WIDTH, HEIGHT (R30). -/
def Obligations.RegistersReadAsMapped : Prop :=
  ∀ s : State,
    portRead 0x000 4 s = 0x56494E56 ∧
    (portRead 0x004 4 s).toNat = s.build.vwSupported.toNat ∧
    (portRead 0x008 4 s).toNat = s.build.maxH.toNat * 65536 + s.build.maxW.toNat ∧
    (portRead 0x00C 4 s).toNat = 4 * s.irqEn.toNat ∧
    (portRead 0x010 4 s).toNat = s.status.busy.toNat + 2 * s.status.done.toNat + 4 * s.status.err.toNat
      + 8 * s.status.wdrop.toNat + 16 * s.status.errcode.toNat + 256 * s.status.effVw.toNat ∧
    portRead 0x014 4 s = s.regs.cmd ∧ portRead 0x018 4 s = s.regs.cfg ∧ portRead 0x01C 4 s = s.regs.amnt ∧
    portRead 0x020 4 s = s.regs.sstr ∧ portRead 0x024 4 s = s.regs.scl ∧ portRead 0x028 4 s = s.erraddr ∧
    ∀ (k f : Nat) (d : Desc) (v : Word),
      [s.regs.d0, s.regs.d1, s.regs.d2, s.regs.d3][k]? = some d →
      [d.base, d.pitch, d.width, d.height][f]? = some v →
      portRead (BitVec.ofNat 12 (0x040 + 16 * k + 4 * f)) 4 s = v

/-- R26 to R30, RST released: an idle write to CMD, CFG, AMNT, SSTR, SCL or a descriptor register stores all 32 bits,
reads back whole and changes no other register and no memory. -/
def Obligations.IdleSetupWritesStoreTheWord : Prop :=
  ∀ (s : State) (off : BitVec 12) (v : Word), s.rst = false → s.status.busy = false → off.toNat % 4 = 0 →
    (0x014 ≤ off.toNat ∧ off.toNat ≤ 0x024 ∨ 0x040 ≤ off.toNat ∧ off.toNat ≤ 0x07C) →
    ∃ t, portWrite off 4 v s = .settle t ∧ portRead off 4 t = v ∧
      (∀ o : BitVec 12, o ≠ off → portRead o 4 t = portRead o 4 s) ∧ t.mem = s.mem ∧ t.snap = s.snap

/-- R280: the writes of its table while BUSY = 1, row by row, RST released. The rows for SRST = 1, for SRST = START = 0,
for STATUS (R25) and for the read-only registers and reserved offsets hold whether or not BUSY = 1 (R21 to R25, R31, R32),
IRQ being recomputed (R38). -/
def Obligations.RegisterWritesFollowTheTable : Prop :=
  ∀ (s : State) (off : BitVec 12) (v : Word), s.rst = false → off.toNat % 4 = 0 →
    let withFlags (en : Bool) (st : Status) : State :=
      { s with irqEn := en, status := st, irq := en && (st.done || st.err) }
    ((0x014 ≤ off.toNat ∧ off.toNat ≤ 0x024 ∨ 0x040 ≤ off.toNat ∧ off.toNat ≤ 0x07C) → s.status.busy = true →
      portWrite off 4 v s = .settle (withFlags s.irqEn { s.status with wdrop := true })) ∧
    (off = 0x00C → v[1] = true → portWrite off 4 v s = .settle (resetCore s)) ∧
    (off = 0x00C → v[1] = false → v[0] = true → s.status.busy = true →
      portWrite off 4 v s = .settle (withFlags v[2] { s.status with wdrop := true })) ∧
    (off = 0x00C → v[1] = false → v[0] = false → portWrite off 4 v s = .settle (withFlags v[2] s.status)) ∧
    (off = 0x010 → portWrite off 4 v s = .settle (withFlags s.irqEn
      { s.status with done := s.status.done && !v[1], err := s.status.err && !v[2],
                      errcode := if v[2] then 0 else s.status.errcode,
                      wdrop := s.status.wdrop && !v[3] })) ∧
    ((off.toNat ≤ 0x008 ∨ 0x028 ≤ off.toNat ∧ off.toNat ≤ 0x03C ∨ 0x080 ≤ off.toNat) →
      portWrite off 4 v s = .settle s)

/-- R230: a START while BUSY = 1 and RST is released starts nothing, sets WDROP and still writes IRQ_EN; the running
command, the registers and memory are untouched. -/
def Obligations.StartWhileBusyIsDropped : Prop :=
  ∀ (s : State) (v : Word) (rest : List HostOp), s.rst = false → s.status.busy = true →
    mover s = .host →
    s.host = .regWrite 0x00C 4 v :: rest → v[0] = true → v[1] = false →
    ∃ t, step s = .next t ∧ t.status = { s.status with wdrop := true } ∧ t.irqEn = v[2] ∧
      t.regs = s.regs ∧ t.snap = s.snap ∧ t.mem = s.mem ∧ t.breached = s.breached ∧ t.host = rest

/-- R32, R33: reserved offsets read 0 and ignore writes, without WDROP; so does every access that is not 32 bits wide or
not at a multiple of 4; and a register read of any offset and size is a step that changes nothing but the host's view: the
value returned, the operation and the turn. -/
def Obligations.AccessesWithoutEffect : Prop :=
  ∀ (s : State) (off : BitVec 12) (size : Nat) (v : Word),
    (size = 4 → off.toNat % 4 = 0 → (0x02C ≤ off.toNat ∧ off.toNat ≤ 0x03C ∨ 0x080 ≤ off.toNat) →
      portRead off size s = 0 ∧ portWrite off size v s = .settle s) ∧
    (size ≠ 4 ∨ off.toNat % 4 ≠ 0 → portRead off size s = 0 ∧ portWrite off size v s = .settle s) ∧
    (∀ rest : List HostOp, mover s = .host → s.host = .regRead off size :: rest →
      step s = .next { s with turns := s.turns.tail, host := rest, readData := portRead off size s })

/-- R271, RST released: a CTRL write with SRST = 1 has exactly the effect of asserting and releasing the reset input,
whatever its other bits: every register at its reset value, no command running, neither DONE nor ERR; host memory outside
the destination cells of an abandoned command is unchanged, and all of it when the core was idle. -/
def Obligations.SoftResetIsAFullReset : Prop :=
  ∀ (s : State) (v : Word), s.rst = false → v[1] = true →
    ∃ t u, portWrite 0x00C 4 v s = .settle t ∧ hostOp (.rst true) s = .settle u ∧ hostOp (.rst false) u = .settle t ∧
      t.irqEn = false ∧ t.status = Status.reset ∧ t.regs = CmdRegs.reset ∧ t.erraddr = 0 ∧ t.irq = false ∧
      t.build = s.build ∧ (s.status.busy = false → t.mem = s.mem) ∧ OnlyDestCells s.snap s.mem t.mem

/-- R270: asserting RST puts the core in the reset state, and releasing it changes nothing else. While it is asserted
(log entry 24), in a state that meets the invariant, no register write and no START has an effect, every register reads
its reset value, IRQ is 0 and no command runs. -/
def Obligations.ResetInputHoldsTheCore : Prop :=
  ∀ s : State,
    (∃ t, hostOp (.rst true) s = .settle t ∧ t.rst = true ∧ t.irqEn = false ∧ t.status = Status.reset ∧
      t.regs = CmdRegs.reset ∧ t.erraddr = 0 ∧ t.irq = false ∧ t.build = s.build ∧
      (s.status.busy = false → t.mem = s.mem) ∧ OnlyDestCells s.snap s.mem t.mem) ∧
    hostOp (.rst false) s = .settle { s with rst := false } ∧
    (s.Inv → s.rst = true →
      s.irq = false ∧ s.status.busy = false ∧
      (∀ (off : BitVec 12) (size : Nat) (v : Word), portWrite off size v s = .settle s) ∧
      (∀ (off : BitVec 12) (size : Nat), portRead off size s = portRead off size (State.resetOf s.build)))

/-- R39, R270: what each register reads after reset, for every build. -/
def Obligations.ResetRegisterValues : Prop :=
  ∀ b : Build,
    portRead 0x000 4 (State.resetOf b) = 0x56494E56 ∧
    (portRead 0x004 4 (State.resetOf b)).toNat = b.vwSupported.toNat ∧
    (portRead 0x008 4 (State.resetOf b)).toNat = b.maxH.toNat * 65536 + b.maxW.toNat ∧
    portRead 0x00C 4 (State.resetOf b) = 0 ∧ portRead 0x010 4 (State.resetOf b) = 0 ∧
    portRead 0x014 4 (State.resetOf b) = 0 ∧ portRead 0x018 4 (State.resetOf b) = 0x00000008 ∧
    portRead 0x01C 4 (State.resetOf b) = 0 ∧ portRead 0x020 4 (State.resetOf b) = 0x402CCCCD ∧
    portRead 0x024 4 (State.resetOf b) = 0x3E800000 ∧
    (∀ off : BitVec 12, 0x028 ≤ off.toNat → portRead off 4 (State.resetOf b) = 0) ∧
    (State.resetOf b).irq = false

/-- R64, R101: on the idle core a 16-bit host write stores its low byte at the address and its high byte after it,
changes no other byte, and a 16-bit read then returns the value. -/
def Obligations.HostCellsAreLittleEndian : Prop :=
  ∀ (s : State) (a : Word) (v : BitVec 16), s.status.busy = false → Mem.wf s.mem → a.toNat + 2 ≤ 2 ^ 32 →
    (registerWindow s.build).has a.toNat = false → (registerWindow s.build).has (a.toNat + 1) = false →
    ∃ t, hostOp (.memW16 a v) s = .settle t ∧
      (Mem.read t.mem a.toNat).toNat = v.toNat % 256 ∧ (Mem.read t.mem (a.toNat + 1)).toNat = v.toNat / 256 ∧
      (∀ c, c ≠ a.toNat → c ≠ a.toNat + 1 → Mem.read t.mem c = Mem.read s.mem c) ∧
      ∃ u, hostOp (.memR16 a) t = .settle u ∧ u.readData.toNat = v.toNat ∧ u.mem = t.mem

/-- R76, R77, R101: an 8-bit host write, idle or BUSY, stores its byte and changes no other byte, no register and no
STATUS bit; while a command runs it is noted as a breach exactly when it falls in a used extent (log entry 14), and on
the idle core never. In the register window it changes nothing (R33; log entry 13). -/
def Obligations.HostByteWriteStoresAndBreaches : Prop :=
  ∀ (s : State) (a : Word) (v : Byte), Mem.wf s.mem →
    ((registerWindow s.build).has a.toNat = true → hostOp (.memW8 a v) s = .settle s) ∧
    ((registerWindow s.build).has a.toNat = false →
      ∃ (m : Mem) (breach : Bool), hostOp (.memW8 a v) s = .settle { s with mem := m, breached := breach } ∧
        Mem.wf m ∧ Mem.read m a.toNat = v ∧ (∀ c, c ≠ a.toNat → Mem.read m c = Mem.read s.mem c) ∧
        (s.status.busy = false → breach = s.breached) ∧
        ∀ i, s.status.busy = true → s.breached = false → decode s.snap.cmd = .ok i →
          (breach = true ↔
            ∃ k ∈ usedSlots i s.snap, ((s.snap.desc k).extent s.snap.unit).has a.toNat = true))

/-- R250 (log entry 20): another instance at work is noted as a breach exactly when its destination meets a used extent,
or an input of it meets the destination. -/
def Obligations.PeerBreachesOnOverlap : Prop :=
  ∀ (s : State) (i : Instr) (dst : Extent) (ins : List Extent), s.status.busy = true → s.breached = false →
    decode s.snap.cmd = .ok i →
    ∃ t, hostOp (.peerRun dst ins) s = .settle t ∧ t.mem = s.mem ∧ t.status = s.status ∧
      (t.breached = true ↔
        (∃ k ∈ usedSlots i s.snap, ∃ a, ((s.snap.desc k).extent s.snap.unit).has a = true ∧ dst.has a = true) ∨
        (∃ e ∈ ins, ∃ a, e.has a = true ∧ (s.snap.d3.extent s.snap.unit).has a = true))

/-- R76, R101: an 8-bit host read anywhere, and a 16-bit one below the last address, changes nothing but the value the host
holds and the model's count of free values (log entries 7 and 8); outside the running command's destination cells and the
register window it returns the bytes, the lower address in the low byte (R64), and a byte read in the window returns 0
(R33; log entry 13). That the padding of a running destination reads as the byte is the model's reading (log entry 15). -/
def Obligations.HostReadsReturnTheByte : Prop :=
  ∀ (s : State) (a : Word),
    let returned (v : Word) : State := { s with readData := v, draws := s.draws + 1 }
    let readable (c : Nat) : Prop :=
      (registerWindow s.build).has c = false ∧
        (s.status.busy = false ∨ s.snap.d3.inCells s.snap.unit c = false)
    (∃ v, hostOp (.memR8 a) s = .settle (returned v) ∧
      (readable a.toNat → v.toNat = (Mem.read s.mem a.toNat).toNat) ∧
      ((registerWindow s.build).has a.toNat = true → v = 0)) ∧
    (a.toNat + 2 ≤ 2 ^ 32 → ∃ v, hostOp (.memR16 a) s = .settle (returned v) ∧
      (readable a.toNat → readable (a.toNat + 1) →
        v.toNat = (Mem.read s.mem a.toNat).toNat + 256 * (Mem.read s.mem (a.toNat + 1)).toNat))

/-! ### The machine as a whole -/

/-- Every step keeps the invariant: canonical memory, the interrupt level of R38, what R25, R202, R231, R232 and R281
say of a running command, the shape of the scratch store (R35), and the reset values while RST is asserted (R270; log
entry 24). -/
def Obligations.EveryStepKeepsTheInvariant : Prop :=
  ∀ s t : State, s.Inv → step s = .next t → t.Inv

/-- The state after reset meets the invariant, for every build. -/
def Obligations.ResetMeetsTheInvariant : Prop := ∀ b : Build, (State.resetOf b).Inv

/-- R273: no step changes a build constant. -/
def Obligations.BuildConstantsNeverChange : Prop :=
  ∀ s t : State, step s = .next t → t.build = s.build

/-- R241: in a state that meets the invariant the core's turn always ends the running command, without a stop.
That it does so in one step of its own is the model's choice (log entries 5 and 6), and so is that a command which reaches
the register window ends with BUSY = 0 (log entry 10). -/
def Obligations.CoreTurnEndsTheCommand : Prop :=
  ∀ s : State, s.Inv → s.status.busy = true → mover s = .core →
    ∃ t, step s = .next t ∧ t.status.busy = false ∧ t.turns = s.turns.tail ∧ t.host = s.host

/-- R241, R290: from a state that meets the invariant the running command has ended within as many steps as turns are
listed and one more, unless a host access past the end of memory stops the run.
The list of turns and the end as one step (log entries 5 and 6), that stop (log entry 11) and the end with BUSY = 0 of a
command that reaches the register window (log entry 10) are the model's choices. -/
def Obligations.CommandEndsInBoundedSteps : Prop :=
  ∀ s : State, s.Inv → s.status.busy = true →
    ∃ n, n ≤ s.turns.length + 1 ∧
      (Host.Core.run Sys2Proof.core n s = .fault Fault.outsideHostMemory ∨
        ∃ t : State, Host.Core.run Sys2Proof.core n s = .next t ∧ t.status.busy = false)
end

