-- ==== Sys2Proof/Laws/State.lean ====
section
/-! SUPPORT. One lemma per field per update of the state, so that no later proof unfolds a record update. -/

namespace Sys2Proof.Machine

/-! ### setStatus -/

@[simp] theorem setStatus_build (s : State) (st : Status) : (s.setStatus st).build = s.build := rfl
@[simp] theorem setStatus_rst (s : State) (st : Status) : (s.setStatus st).rst = s.rst := rfl
@[simp] theorem setStatus_irqEn (s : State) (st : Status) : (s.setStatus st).irqEn = s.irqEn := rfl
@[simp] theorem setStatus_status (s : State) (st : Status) : (s.setStatus st).status = st := rfl
@[simp] theorem setStatus_regs (s : State) (st : Status) : (s.setStatus st).regs = s.regs := rfl
@[simp] theorem setStatus_erraddr (s : State) (st : Status) : (s.setStatus st).erraddr = s.erraddr := rfl
@[simp] theorem setStatus_snap (s : State) (st : Status) : (s.setStatus st).snap = s.snap := rfl
@[simp] theorem setStatus_scratch (s : State) (st : Status) : (s.setStatus st).scratch = s.scratch := rfl
@[simp] theorem setStatus_irq (s : State) (st : Status) : (s.setStatus st).irq = (s.irqEn && (st.done || st.err)) := rfl
@[simp] theorem setStatus_mem (s : State) (st : Status) : (s.setStatus st).mem = s.mem := rfl
@[simp] theorem setStatus_breached (s : State) (st : Status) : (s.setStatus st).breached = s.breached := rfl
@[simp] theorem setStatus_host (s : State) (st : Status) : (s.setStatus st).host = s.host := rfl
@[simp] theorem setStatus_turns (s : State) (st : Status) : (s.setStatus st).turns = s.turns := rfl
@[simp] theorem setStatus_readData (s : State) (st : Status) : (s.setStatus st).readData = s.readData := rfl
@[simp] theorem setStatus_draws (s : State) (st : Status) : (s.setStatus st).draws = s.draws := rfl

/-! ### setIrqEn -/

@[simp] theorem setIrqEn_build (s : State) (en : Bool) : (s.setIrqEn en).build = s.build := rfl
@[simp] theorem setIrqEn_rst (s : State) (en : Bool) : (s.setIrqEn en).rst = s.rst := rfl
@[simp] theorem setIrqEn_irqEn (s : State) (en : Bool) : (s.setIrqEn en).irqEn = en := rfl
@[simp] theorem setIrqEn_status (s : State) (en : Bool) : (s.setIrqEn en).status = s.status := rfl
@[simp] theorem setIrqEn_regs (s : State) (en : Bool) : (s.setIrqEn en).regs = s.regs := rfl
@[simp] theorem setIrqEn_erraddr (s : State) (en : Bool) : (s.setIrqEn en).erraddr = s.erraddr := rfl
@[simp] theorem setIrqEn_snap (s : State) (en : Bool) : (s.setIrqEn en).snap = s.snap := rfl
@[simp] theorem setIrqEn_scratch (s : State) (en : Bool) : (s.setIrqEn en).scratch = s.scratch := rfl
@[simp] theorem setIrqEn_irq (s : State) (en : Bool) : (s.setIrqEn en).irq = (en && (s.status.done || s.status.err)) := rfl
@[simp] theorem setIrqEn_mem (s : State) (en : Bool) : (s.setIrqEn en).mem = s.mem := rfl
@[simp] theorem setIrqEn_breached (s : State) (en : Bool) : (s.setIrqEn en).breached = s.breached := rfl
@[simp] theorem setIrqEn_host (s : State) (en : Bool) : (s.setIrqEn en).host = s.host := rfl
@[simp] theorem setIrqEn_turns (s : State) (en : Bool) : (s.setIrqEn en).turns = s.turns := rfl
@[simp] theorem setIrqEn_readData (s : State) (en : Bool) : (s.setIrqEn en).readData = s.readData := rfl
@[simp] theorem setIrqEn_draws (s : State) (en : Bool) : (s.setIrqEn en).draws = s.draws := rfl

/-! ### acceptStart -/

@[simp] theorem acceptStart_build (s : State) : (acceptStart s).build = s.build := rfl
@[simp] theorem acceptStart_rst (s : State) : (acceptStart s).rst = s.rst := rfl
@[simp] theorem acceptStart_irqEn (s : State) : (acceptStart s).irqEn = s.irqEn := rfl
@[simp] theorem acceptStart_status (s : State) : (acceptStart s).status = s.status.started := rfl
@[simp] theorem acceptStart_regs (s : State) : (acceptStart s).regs = s.regs := rfl
@[simp] theorem acceptStart_erraddr (s : State) : (acceptStart s).erraddr = 0 := rfl
@[simp] theorem acceptStart_snap (s : State) : (acceptStart s).snap = s.regs := rfl
@[simp] theorem acceptStart_scratch (s : State) : (acceptStart s).scratch = s.scratch := rfl
@[simp] theorem acceptStart_mem (s : State) : (acceptStart s).mem = s.mem := rfl
@[simp] theorem acceptStart_breached (s : State) : (acceptStart s).breached = false := rfl
@[simp] theorem acceptStart_host (s : State) : (acceptStart s).host = s.host := rfl
@[simp] theorem acceptStart_turns (s : State) : (acceptStart s).turns = s.turns := rfl
@[simp] theorem acceptStart_readData (s : State) : (acceptStart s).readData = s.readData := rfl
@[simp] theorem acceptStart_draws (s : State) : (acceptStart s).draws = s.draws := rfl
@[simp] theorem acceptStart_irq (s : State) : (acceptStart s).irq = false := by
  cases h : s.irqEn <;> simp [acceptStart, State.setStatus, irqLevel, Status.started]

/-! ### raiseError -/

@[simp] theorem raiseError_build (c : ErrCode) (s : State) : (raiseError c s).build = s.build := rfl
@[simp] theorem raiseError_rst (c : ErrCode) (s : State) : (raiseError c s).rst = s.rst := rfl
@[simp] theorem raiseError_irqEn (c : ErrCode) (s : State) : (raiseError c s).irqEn = s.irqEn := rfl
@[simp] theorem raiseError_status (c : ErrCode) (s : State) : (raiseError c s).status = { s.status with busy := false, err := true, errcode := c.num } := rfl
@[simp] theorem raiseError_regs (c : ErrCode) (s : State) : (raiseError c s).regs = s.regs := rfl
@[simp] theorem raiseError_erraddr (c : ErrCode) (s : State) : (raiseError c s).erraddr = s.erraddr := rfl
@[simp] theorem raiseError_snap (c : ErrCode) (s : State) : (raiseError c s).snap = s.snap := rfl
@[simp] theorem raiseError_scratch (c : ErrCode) (s : State) : (raiseError c s).scratch = s.scratch := rfl
@[simp] theorem raiseError_mem (c : ErrCode) (s : State) : (raiseError c s).mem = s.mem := rfl
@[simp] theorem raiseError_breached (c : ErrCode) (s : State) : (raiseError c s).breached = s.breached := rfl
@[simp] theorem raiseError_host (c : ErrCode) (s : State) : (raiseError c s).host = s.host := rfl
@[simp] theorem raiseError_turns (c : ErrCode) (s : State) : (raiseError c s).turns = s.turns := rfl
@[simp] theorem raiseError_readData (c : ErrCode) (s : State) : (raiseError c s).readData = s.readData := rfl
@[simp] theorem raiseError_draws (c : ErrCode) (s : State) : (raiseError c s).draws = s.draws := rfl
@[simp] theorem raiseError_irq (c : ErrCode) (s : State) : (raiseError c s).irq = s.irqEn := by
  simp [raiseError, State.setStatus, irqLevel]

/-! ### signalDone -/

@[simp] theorem signalDone_build (s : State) : (signalDone s).build = s.build := rfl
@[simp] theorem signalDone_rst (s : State) : (signalDone s).rst = s.rst := rfl
@[simp] theorem signalDone_irqEn (s : State) : (signalDone s).irqEn = s.irqEn := rfl
@[simp] theorem signalDone_status (s : State) : (signalDone s).status = { s.status with busy := false, done := true } := rfl
@[simp] theorem signalDone_regs (s : State) : (signalDone s).regs = s.regs := rfl
@[simp] theorem signalDone_erraddr (s : State) : (signalDone s).erraddr = s.erraddr := rfl
@[simp] theorem signalDone_snap (s : State) : (signalDone s).snap = s.snap := rfl
@[simp] theorem signalDone_scratch (s : State) : (signalDone s).scratch = s.scratch := rfl
@[simp] theorem signalDone_mem (s : State) : (signalDone s).mem = s.mem := rfl
@[simp] theorem signalDone_breached (s : State) : (signalDone s).breached = s.breached := rfl
@[simp] theorem signalDone_host (s : State) : (signalDone s).host = s.host := rfl
@[simp] theorem signalDone_turns (s : State) : (signalDone s).turns = s.turns := rfl
@[simp] theorem signalDone_readData (s : State) : (signalDone s).readData = s.readData := rfl
@[simp] theorem signalDone_draws (s : State) : (signalDone s).draws = s.draws := rfl
@[simp] theorem signalDone_irq (s : State) : (signalDone s).irq = s.irqEn := by
  simp [signalDone, State.setStatus, irqLevel]

/-! ### leaveCommand -/

@[simp] theorem leaveCommand_build (m : Mem) (s : State) : (leaveCommand m s).build = s.build := rfl
@[simp] theorem leaveCommand_rst (m : Mem) (s : State) : (leaveCommand m s).rst = s.rst := rfl
@[simp] theorem leaveCommand_irqEn (m : Mem) (s : State) : (leaveCommand m s).irqEn = s.irqEn := rfl
@[simp] theorem leaveCommand_status (m : Mem) (s : State) : (leaveCommand m s).status = s.status := rfl
@[simp] theorem leaveCommand_regs (m : Mem) (s : State) : (leaveCommand m s).regs = s.regs := rfl
@[simp] theorem leaveCommand_erraddr (m : Mem) (s : State) : (leaveCommand m s).erraddr = s.erraddr := rfl
@[simp] theorem leaveCommand_snap (m : Mem) (s : State) : (leaveCommand m s).snap = s.snap := rfl
@[simp] theorem leaveCommand_scratch (m : Mem) (s : State) : (leaveCommand m s).scratch = freeScratch s.build s.draws := rfl
@[simp] theorem leaveCommand_irq (m : Mem) (s : State) : (leaveCommand m s).irq = s.irq := rfl
@[simp] theorem leaveCommand_mem (m : Mem) (s : State) : (leaveCommand m s).mem = m := rfl
@[simp] theorem leaveCommand_breached (m : Mem) (s : State) : (leaveCommand m s).breached = false := rfl
@[simp] theorem leaveCommand_host (m : Mem) (s : State) : (leaveCommand m s).host = s.host := rfl
@[simp] theorem leaveCommand_turns (m : Mem) (s : State) : (leaveCommand m s).turns = s.turns := rfl
@[simp] theorem leaveCommand_readData (m : Mem) (s : State) : (leaveCommand m s).readData = s.readData := rfl
@[simp] theorem leaveCommand_draws (m : Mem) (s : State) : (leaveCommand m s).draws = s.draws + 1 := rfl

/-! ### dropWrite -/

@[simp] theorem dropWrite_build (s : State) : s.dropWrite.build = s.build := rfl
@[simp] theorem dropWrite_rst (s : State) : s.dropWrite.rst = s.rst := rfl
@[simp] theorem dropWrite_irqEn (s : State) : s.dropWrite.irqEn = s.irqEn := rfl
@[simp] theorem dropWrite_status (s : State) : s.dropWrite.status = { s.status with wdrop := true } := rfl
@[simp] theorem dropWrite_regs (s : State) : s.dropWrite.regs = s.regs := rfl
@[simp] theorem dropWrite_erraddr (s : State) : s.dropWrite.erraddr = s.erraddr := rfl
@[simp] theorem dropWrite_snap (s : State) : s.dropWrite.snap = s.snap := rfl
@[simp] theorem dropWrite_scratch (s : State) : s.dropWrite.scratch = s.scratch := rfl
@[simp] theorem dropWrite_irq (s : State) : s.dropWrite.irq = (s.irqEn && (s.status.done || s.status.err)) := rfl
@[simp] theorem dropWrite_mem (s : State) : s.dropWrite.mem = s.mem := rfl
@[simp] theorem dropWrite_breached (s : State) : s.dropWrite.breached = s.breached := rfl
@[simp] theorem dropWrite_host (s : State) : s.dropWrite.host = s.host := rfl
@[simp] theorem dropWrite_turns (s : State) : s.dropWrite.turns = s.turns := rfl
@[simp] theorem dropWrite_readData (s : State) : s.dropWrite.readData = s.readData := rfl
@[simp] theorem dropWrite_draws (s : State) : s.dropWrite.draws = s.draws := rfl

/-! ### returned -/

@[simp] theorem returned_build (s : State) (v : Word) : (s.returned v).build = s.build := rfl
@[simp] theorem returned_rst (s : State) (v : Word) : (s.returned v).rst = s.rst := rfl
@[simp] theorem returned_irqEn (s : State) (v : Word) : (s.returned v).irqEn = s.irqEn := rfl
@[simp] theorem returned_status (s : State) (v : Word) : (s.returned v).status = s.status := rfl
@[simp] theorem returned_regs (s : State) (v : Word) : (s.returned v).regs = s.regs := rfl
@[simp] theorem returned_erraddr (s : State) (v : Word) : (s.returned v).erraddr = s.erraddr := rfl
@[simp] theorem returned_snap (s : State) (v : Word) : (s.returned v).snap = s.snap := rfl
@[simp] theorem returned_scratch (s : State) (v : Word) : (s.returned v).scratch = s.scratch := rfl
@[simp] theorem returned_irq (s : State) (v : Word) : (s.returned v).irq = s.irq := rfl
@[simp] theorem returned_mem (s : State) (v : Word) : (s.returned v).mem = s.mem := rfl
@[simp] theorem returned_breached (s : State) (v : Word) : (s.returned v).breached = s.breached := rfl
@[simp] theorem returned_host (s : State) (v : Word) : (s.returned v).host = s.host := rfl
@[simp] theorem returned_turns (s : State) (v : Word) : (s.returned v).turns = s.turns := rfl
@[simp] theorem returned_readData (s : State) (v : Word) : (s.returned v).readData = v := rfl
@[simp] theorem returned_draws (s : State) (v : Word) : (s.returned v).draws = s.draws + 1 := rfl

/-! ### STATUS -/

@[simp] theorem started_busy (st : Status) : st.started.busy = st.busy := rfl
@[simp] theorem started_done (st : Status) : st.started.done = false := rfl
@[simp] theorem started_err (st : Status) : st.started.err = false := rfl
@[simp] theorem started_wdrop (st : Status) : st.started.wdrop = st.wdrop := rfl
@[simp] theorem started_errcode (st : Status) : st.started.errcode = 0 := rfl
@[simp] theorem started_effVw (st : Status) : st.started.effVw = st.effVw := rfl
@[simp] theorem w1c_busy (st : Status) (v : Word) : (st.w1c v).busy = st.busy := rfl
@[simp] theorem w1c_effVw (st : Status) (v : Word) : (st.w1c v).effVw = st.effVw := rfl
@[simp] theorem freeStatus_busy (n : Nat) : (freeStatus n).busy = false := rfl

/-! ### resetCore -/

@[simp] theorem resetCore_build (s : State) : (resetCore s).build = s.build := rfl
@[simp] theorem resetCore_rst (s : State) : (resetCore s).rst = s.rst := rfl
@[simp] theorem resetCore_irqEn (s : State) : (resetCore s).irqEn = false := rfl
@[simp] theorem resetCore_status (s : State) : (resetCore s).status = Status.reset := rfl
@[simp] theorem resetCore_regs (s : State) : (resetCore s).regs = CmdRegs.reset := rfl
@[simp] theorem resetCore_erraddr (s : State) : (resetCore s).erraddr = 0 := rfl
@[simp] theorem resetCore_irq (s : State) : (resetCore s).irq = false := rfl
@[simp] theorem resetCore_breached (s : State) : (resetCore s).breached = false := rfl
@[simp] theorem resetCore_scratch (s : State) : (resetCore s).scratch = freeScratch s.build s.draws := rfl
@[simp] theorem resetCore_host (s : State) : (resetCore s).host = s.host := rfl
@[simp] theorem resetCore_turns (s : State) : (resetCore s).turns = s.turns := rfl
@[simp] theorem resetCore_readData (s : State) : (resetCore s).readData = s.readData := rfl
@[simp] theorem resetCore_mem (s : State) :
    (resetCore s).mem = if s.status.busy then freeDest s.snap s.draws s.mem else s.mem := rfl

/-! ### driveReset -/

/-- Asserting RST gives the reset state with the level recorded (R270). -/
@[simp] theorem driveReset_assert (s : State) : driveReset true s = { resetCore s with rst := true } := rfl

/-- Releasing RST changes nothing else (R270). -/
@[simp] theorem driveReset_release (s : State) : driveReset false s = { s with rst := false } := rfl

@[simp] theorem driveReset_rst (level : Bool) (s : State) : (driveReset level s).rst = level := by cases level <;> rfl
@[simp] theorem driveReset_build (level : Bool) (s : State) : (driveReset level s).build = s.build := by
  cases level <;> rfl
@[simp] theorem driveReset_host (level : Bool) (s : State) : (driveReset level s).host = s.host := by
  cases level <;> rfl
@[simp] theorem driveReset_turns (level : Bool) (s : State) : (driveReset level s).turns = s.turns := by
  cases level <;> rfl

end Sys2Proof.Machine
end

