-- ==== Sys2Proof/Laws/Memory.lean ====
section
/-! SUPPORT. What the memory operations do: read after write, everything else alone, canonical form kept, and cells
read back as the value stored (R14, R64). -/

namespace Sys2Proof.Machine

/-- An address below every listed one reads as unlisted. -/
theorem Mem.read_below (m : Mem) (a : Nat) (h : ∀ c ∈ m, a < c.1) : Mem.read m a = Mem.unlisted := by
  induction m with
  | nil => rfl
  | cons c m ih =>
    have h1 : a ≠ c.1 := Nat.ne_of_lt (h c (by simp))
    simpa [Mem.read, h1] using ih fun d hd => h d (by simp [hd])

theorem Mem.read_write_other (m : Mem) (a b : Nat) (v : Byte) (h : a ≠ b) :
    Mem.read (Mem.write m b v) a = Mem.read m a := by
  induction m with
  | nil => by_cases hv : v = Mem.unlisted <;> simp [Mem.write, Mem.read, hv, h]
  | cons c m ih =>
    simp only [Mem.write]
    by_cases h1 : b < c.1
    · by_cases hv : v = Mem.unlisted <;> simp [h1, hv, Mem.read, h]
    · by_cases h2 : b = c.1
      · have h3 : a ≠ c.1 := h2 ▸ h
        by_cases hv : v = Mem.unlisted
        · simp [← h2, hv, Mem.read, h]
        · simp [← h2, hv, Mem.read, h]
      · simp only [h1, h2, if_false, Mem.read, ih]

theorem Mem.read_write_same (m : Mem) (a : Nat) (v : Byte) (hm : m.Pairwise fun c d => c.1 < d.1) :
    Mem.read (Mem.write m a v) a = v := by
  induction m with
  | nil => by_cases hv : v = Mem.unlisted <;> simp [Mem.write, Mem.read, hv]
  | cons c m ih =>
    obtain ⟨hc, hm⟩ := List.pairwise_cons.mp hm
    simp only [Mem.write]
    by_cases h1 : a < c.1
    · by_cases hv : v = Mem.unlisted
      · simp only [h1, hv, if_true]
        refine Mem.read_below _ _ fun d hd => ?_
        rcases List.mem_cons.mp hd with rfl | hd
        · exact h1
        · exact h1.trans (hc d hd)
      · simp [h1, hv, Mem.read]
    · by_cases h2 : a = c.1
      · by_cases hv : v = Mem.unlisted
        · subst h2
          simp only [lt_irrefl, if_false, if_true, hv]
          exact Mem.read_below _ _ hc
        · simp [h2, hv, Mem.read]
      · simp [h1, h2, Mem.read, ih hm]

/-- A cell of the memory after a write is one of before or the one written. -/
theorem Mem.mem_write (m : Mem) (a : Nat) (v : Byte) (c : Host.Cell) (h : c ∈ Mem.write m a v) :
    c ∈ m ∨ (c = (a, v) ∧ v ≠ Mem.unlisted) := by
  induction m with
  | nil =>
    by_cases hv : v = Mem.unlisted <;> simp [Mem.write, hv] at h
    exact .inr ⟨h, hv⟩
  | cons d m ih =>
    simp only [Mem.write] at h
    by_cases h1 : a < d.1
    · by_cases hv : v = Mem.unlisted <;> simp [h1, hv] at h <;> aesop
    · by_cases h2 : a = d.1
      · by_cases hv : v = Mem.unlisted <;> simp [h2, hv] at h <;> aesop
      · simp only [h1, h2, if_false, List.mem_cons] at h
        rcases h with rfl | h
        · simp
        · rcases ih h with h | h
          · simp [h]
          · exact .inr h

theorem Mem.wf_write (m : Mem) (a : Nat) (v : Byte) (hm : Mem.wf m) (ha : a < memLimit) :
    Mem.wf (Mem.write m a v) := by
  refine ⟨?_, fun c hc => ?_⟩
  · obtain ⟨hm, -⟩ := hm
    induction m with
    | nil => by_cases hv : v = Mem.unlisted <;> simp [Mem.write, hv]
    | cons c m ih =>
      obtain ⟨hc, hm'⟩ := List.pairwise_cons.mp hm
      simp only [Mem.write]
      by_cases h1 : a < c.1
      · by_cases hv : v = Mem.unlisted
        · simpa [h1, hv] using hm
        · simp only [h1, hv, if_true, if_false, List.pairwise_cons]
          refine ⟨fun d hd => ?_, hc, hm'⟩
          rcases List.mem_cons.mp hd with rfl | hd
          · exact h1
          · exact h1.trans (hc d hd)
      · by_cases h2 : a = c.1
        · by_cases hv : v = Mem.unlisted
          · simpa [h2, hv] using hm'
          · subst h2
            simp only [lt_irrefl, hv, if_true, if_false]
            exact List.pairwise_cons.mpr ⟨hc, hm'⟩
        · simp only [h1, h2, if_false, List.pairwise_cons]
          refine ⟨fun d hd => ?_, ih hm'⟩
          rcases Mem.mem_write m a v d hd with hd | ⟨rfl, -⟩
          · exact hc d hd
          · show c.1 < a
            omega
  · rcases Mem.mem_write m a v c hc with hc | ⟨rfl, hv⟩
    · exact hm.2 c hc
    · exact ⟨ha, hv⟩

@[simp] theorem Mem.writeAll_nil (m : Mem) : Mem.writeAll m [] = m := rfl

@[simp] theorem Mem.writeAll_cons (m : Mem) (p : Nat × Byte) (ps : List (Nat × Byte)) :
    Mem.writeAll m (p :: ps) = Mem.writeAll (Mem.write m p.1 p.2) ps := rfl

theorem Mem.wf_writeAll (ps : List (Nat × Byte)) (m : Mem) (hm : Mem.wf m) (h : ∀ p ∈ ps, p.1 < memLimit) :
    Mem.wf (Mem.writeAll m ps) := by
  induction ps generalizing m with
  | nil => exact hm
  | cons p ps ih =>
    exact ih _ (Mem.wf_write m p.1 p.2 hm (h p (by simp))) fun q hq => h q (by simp [hq])

theorem Mem.read_writeAll_other (ps : List (Nat × Byte)) (m : Mem) (a : Nat) (h : a ∉ ps.map Prod.fst) :
    Mem.read (Mem.writeAll m ps) a = Mem.read m a := by
  induction ps generalizing m with
  | nil => rfl
  | cons p ps ih =>
    simp only [List.map_cons, List.mem_cons, not_or] at h
    rw [Mem.writeAll_cons, ih _ h.2, Mem.read_write_other _ _ _ _ h.1]

theorem Mem.read_writeAll_mem (ps : List (Nat × Byte)) (m : Mem) (hm : Mem.wf m)
    (hl : ∀ p ∈ ps, p.1 < memLimit) (hn : (ps.map Prod.fst).Nodup) (a : Nat) (v : Byte) (h : (a, v) ∈ ps) :
    Mem.read (Mem.writeAll m ps) a = v := by
  induction ps generalizing m with
  | nil => simp at h
  | cons p ps ih =>
    simp only [List.map_cons, List.nodup_cons] at hn
    rcases List.mem_cons.mp h with rfl | h
    · rw [Mem.writeAll_cons, Mem.read_writeAll_other _ _ _ hn.1, Mem.read_write_same _ _ _ hm.1]
    · exact ih _ (Mem.wf_write m p.1 p.2 hm (hl p (by simp))) (fun q hq => hl q (by simp [hq])) hn.2 h

/-- Reading a cell depends on its own bytes only. -/
theorem Mem.readLE_congr (m m' : Mem) (n a : Nat) (h : ∀ k < n, Mem.read m' (a + k) = Mem.read m (a + k)) :
    Mem.readLE m' a n = Mem.readLE m a n := by
  induction n generalizing a with
  | zero => rfl
  | succ n ih =>
    have h0 := h 0 (by omega)
    have h1 := ih (a + 1) fun k hk => by
      have := h (k + 1) (by omega)
      rwa [show a + (k + 1) = a + 1 + k by omega] at this
    simp only [Nat.add_zero] at h0
    simp only [Mem.readLE, h0, h1]

theorem cellBytes_fst (n a v : Nat) : (cellBytes a n v).map Prod.fst = (List.range n).map (a + ·) := by
  induction n generalizing a v with
  | zero => rfl
  | succ n ih =>
    rw [List.range_succ_eq_map]
    simp only [cellBytes, List.map_cons, ih, List.map_map, Nat.add_zero]
    congr 1
    refine List.map_congr_left fun k _ => ?_
    simp only [Function.comp]
    omega

/-- A memory that holds the bytes of a stored value reads the value back, when it fits (R14, R64). -/
theorem readLE_of_cellBytes (m : Mem) (n a v : Nat) (hv : v < 256 ^ n)
    (h : ∀ p ∈ cellBytes a n v, Mem.read m p.1 = p.2) : Mem.readLE m a n = v := by
  induction n generalizing a v with
  | zero => simp at hv; simp [Mem.readLE, hv]
  | succ n ih =>
    have h0 : Mem.read m a = BitVec.ofNat 8 v := h (a, BitVec.ofNat 8 v) (by simp [cellBytes])
    have h1 := ih (a + 1) (v / 256) (by rw [Nat.pow_succ] at hv; omega)
      fun p hp => h p (by simp [cellBytes, hp])
    simp only [Mem.readLE, h0, h1, BitVec.toNat_ofNat]
    omega

/-- Every byte is below 256, so a cell of n bytes is below 256^n. -/
theorem readLE_lt (m : Mem) (n a : Nat) : Mem.readLE m a n < 256 ^ n := by
  induction n generalizing a with
  | zero => simp [Mem.readLE]
  | succ n ih =>
    have h1 := (Mem.read m a).isLt
    have h2 := ih (a + 1)
    simp only [Mem.readLE, Nat.pow_succ]
    omega

end Sys2Proof.Machine
end

