-- ==== Sys2Proof/Laws/Plane.lean ====
section
/-! SUPPORT. Planes, cells and addresses: what a plane built from a function holds, where the destination cells lie,
and that a stored plane reads back (R15, R63, R66). -/

namespace Sys2Proof.Machine

/-! ### Planes -/

@[simp] theorem Plane.at_make (h w : Nat) (f : Nat → Nat → Nat) (y x : Nat) (hy : y < h) (hx : x < w) :
    (Plane.make h w f).at y x = f y x := by
  simp [Plane.make, Plane.at, List.getD_eq_getElem?_getD, hy, hx]

theorem readPlane_at (m : Mem) (S : CmdRegs) (k : Slot) (y x : Nat) (hy : y < S.rows) (hx : x < S.cols) :
    (readPlane m S k).at y x = sample m (S.desc k) S.unit y x := by
  simp [readPlane, hy, hx]

theorem mem_grid (h w : Nat) (p : Nat × Nat) : p ∈ grid h w ↔ p.1 < h ∧ p.2 < w := by
  rcases p with ⟨y, x⟩
  simp only [grid, List.mem_flatMap, List.mem_map, List.mem_range, Prod.mk.injEq]
  constructor
  · rintro ⟨a, ha, b, hb, rfl, rfl⟩
    exact ⟨ha, hb⟩
  · rintro ⟨hy, hx⟩
    exact ⟨y, hy, x, hx, rfl, rfl⟩

theorem mem_accesses (ks : List Slot) (S : CmdRegs) (a : Nat) :
    a ∈ accesses ks S ↔
      ∃ k ∈ ks, ∃ y < S.rows, ∃ x < S.cols, a = (S.desc k).addr S.unit y x := by
  simp only [accesses, List.mem_flatMap, List.mem_map, mem_grid]
  constructor
  · rintro ⟨k, hk, ⟨y, x⟩, ⟨hy, hx⟩, rfl⟩
    exact ⟨k, hk, y, hy, x, hx, rfl⟩
  · rintro ⟨k, hk, y, hy, x, hx, rfl⟩
    exact ⟨k, hk, (y, x), ⟨hy, hx⟩, rfl⟩

theorem CmdRegs.unit_cases (S : CmdRegs) : S.unit = 1 ∨ S.unit = 2 := by
  unfold CmdRegs.unit
  split <;> simp

theorem CmdRegs.unit_pos (S : CmdRegs) : 0 < S.unit := by
  rcases S.unit_cases with h | h <;> omega

/-! ### Destination cells -/

theorem mem_destBytes (S : CmdRegs) (a : Nat) :
    a ∈ destBytes S ↔
      ∃ y < S.rows, ∃ x < S.cols, ∃ k < S.unit, a = S.d3.addr S.unit y x + k := by
  simp only [destBytes, List.mem_flatMap, List.mem_map, List.mem_range, mem_grid]
  constructor
  · rintro ⟨⟨y, x⟩, ⟨hy, hx⟩, k, hk, rfl⟩
    exact ⟨y, hy, x, hx, k, hk, rfl⟩
  · rintro ⟨y, hy, x, hx, k, hk, rfl⟩
    exact ⟨(y, x), ⟨hy, hx⟩, k, hk, rfl⟩

/-- The destination bytes are the row segments of R66. -/
theorem mem_destBytes_iff_inCells (S : CmdRegs) (a : Nat) :
    a ∈ destBytes S ↔ S.d3.inCells S.unit a = true := by
  rw [mem_destBytes]
  simp only [Desc.inCells, List.any_eq_true, List.mem_range, decide_eq_true_eq]
  simp only [Desc.addr]
  constructor
  · rintro ⟨y, hy, x, hx, k, hk, rfl⟩
    refine ⟨y, hy, by omega, ?_⟩
    have h1 : (x + 1) * S.unit ≤ S.cols * S.unit := Nat.mul_le_mul_right _ hx
    have h2 : (x + 1) * S.unit = x * S.unit + S.unit := by ring
    simp only [CmdRegs.cols] at h1
    omega
  · rintro ⟨y, hy, h1, h2⟩
    have hu := S.unit_pos
    simp only [Nat.zero_mul, Nat.add_zero] at h1 h2
    generalize hb : S.d3.base.toNat + y * S.d3.pitch.toNat = b at h1 h2
    have hq := Nat.div_add_mod (a - b) S.unit
    have hr := Nat.mod_lt (a - b) hu
    refine ⟨y, hy, (a - b) / S.unit, ?_, (a - b) % S.unit, hr, ?_⟩
    · refine (Nat.div_lt_iff_lt_mul hu).mpr ?_
      simp only [CmdRegs.cols]
      omega
    · rw [Nat.mul_comm] at hq
      omega

theorem not_mem_destBytes (S : CmdRegs) (a : Nat) (h : S.d3.inCells S.unit a = false) : a ∉ destBytes S := by
  rw [mem_destBytes_iff_inCells, h]
  simp

theorem destWrites_fst (S : CmdRegs) (Y : Plane) : (destWrites S Y).map Prod.fst = destBytes S := by
  simp only [destWrites, destBytes, List.map_flatMap, cellBytes_fst]

/-- With rows that do not overlap (R233 code 3) no two destination bytes share an address. -/
theorem destBytes_nodup (S : CmdRegs) (hp : S.cols * S.unit ≤ S.d3.pitch.toNat) : (destBytes S).Nodup := by
  have hu := S.unit_pos
  have key : ∀ y x k y' x' k', x < S.cols → k < S.unit → x' < S.cols → k' < S.unit →
      S.d3.addr S.unit y x + k = S.d3.addr S.unit y' x' + k' → y = y' ∧ x = x' ∧ k = k' := by
    intro y x k y' x' k' hx hk hx' hk' h
    have e1 : (x + 1) * S.unit ≤ S.cols * S.unit := Nat.mul_le_mul_right _ hx
    have e1' : (x + 1) * S.unit = x * S.unit + S.unit := by ring
    have e2 : (x' + 1) * S.unit ≤ S.cols * S.unit := Nat.mul_le_mul_right _ hx'
    have e2' : (x' + 1) * S.unit = x' * S.unit + S.unit := by ring
    simp only [Desc.addr] at h
    have hy : y = y' := by
      rcases Nat.lt_trichotomy y y' with hlt | rfl | hlt
      · have e3 : (y + 1) * S.d3.pitch.toNat ≤ y' * S.d3.pitch.toNat := Nat.mul_le_mul_right _ hlt
        have e3' : (y + 1) * S.d3.pitch.toNat = y * S.d3.pitch.toNat + S.d3.pitch.toNat := by ring
        omega
      · rfl
      · have e3 : (y' + 1) * S.d3.pitch.toNat ≤ y * S.d3.pitch.toNat := Nat.mul_le_mul_right _ hlt
        have e3' : (y' + 1) * S.d3.pitch.toNat = y' * S.d3.pitch.toNat + S.d3.pitch.toNat := by ring
        omega
    subst hy
    have hx : x = x' := by
      rcases Nat.lt_trichotomy x x' with hlt | rfl | hlt
      · have e3 : (x + 1) * S.unit ≤ x' * S.unit := Nat.mul_le_mul_right _ hlt
        omega
      · rfl
      · have e3 : (x' + 1) * S.unit ≤ x * S.unit := Nat.mul_le_mul_right _ hlt
        omega
    subst hx
    exact ⟨rfl, rfl, by omega⟩
  have hg : (grid S.rows S.cols).Nodup := by
    unfold grid
    refine List.nodup_flatMap.mpr ⟨fun y _ => ?_, ?_⟩
    · exact List.Nodup.map (fun a b h => (Prod.mk.inj h).2) List.nodup_range
    · refine List.Nodup.pairwise_of_forall_ne List.nodup_range fun y _ y' _ hne => ?_
      simp only [Function.onFun, List.disjoint_left, List.mem_map]
      rintro p ⟨x, -, rfl⟩ ⟨x', -, h⟩
      exact hne (Prod.mk.inj h).1.symm
  unfold destBytes
  refine List.nodup_flatMap.mpr ⟨fun p _ => ?_, ?_⟩
  · exact List.Nodup.map (fun a b h => by simpa using h) List.nodup_range
  · refine List.Nodup.pairwise_of_forall_ne hg fun p hp' q hq hne => ?_
    rw [mem_grid] at hp' hq
    simp only [Function.onFun, List.disjoint_left, List.mem_map, List.mem_range]
    rintro a ⟨k, hk, rfl⟩ ⟨k', hk', h⟩
    obtain ⟨h1, h2, -⟩ := key _ _ _ _ _ _ hq.2 hk' hp'.2 hk h
    exact hne (Prod.ext h1.symm h2.symm)

/-- After the destination writes each destination sample reads back the plane's value, when it fits its cell. -/
theorem sample_destWrites (S : CmdRegs) (Y : Plane) (m : Mem) (hm : Mem.wf m)
    (hp : S.cols * S.unit ≤ S.d3.pitch.toNat) (hl : ∀ a ∈ destBytes S, a < memLimit) (y x : Nat)
    (hy : y < S.rows) (hx : x < S.cols) (hv : Y.at y x < 256 ^ S.unit) :
    sample (Mem.writeAll m (destWrites S Y)) S.d3 S.unit y x = Y.at y x := by
  refine readLE_of_cellBytes _ _ _ _ hv fun p hp' => ?_
  refine Mem.read_writeAll_mem _ _ hm (fun q hq => hl _ ?_) ?_ _ _ ?_
  · rw [← destWrites_fst S Y]
    exact List.mem_map_of_mem hq
  · rw [destWrites_fst]
    exact destBytes_nodup S hp
  · exact List.mem_flatMap.mpr ⟨(y, x), (mem_grid _ _ _).mpr ⟨hy, hx⟩, hp'⟩

/-- The destination writes leave every byte outside the destination cells alone (R69). -/
theorem read_destWrites_other (S : CmdRegs) (Y : Plane) (m : Mem) (a : Nat) (h : S.d3.inCells S.unit a = false) :
    Mem.read (Mem.writeAll m (destWrites S Y)) a = Mem.read m a := by
  refine Mem.read_writeAll_other _ _ _ ?_
  rw [destWrites_fst]
  exact not_mem_destBytes S a h

theorem freeDest_fst (S : CmdRegs) (n : Nat) :
    (((destBytes S).filter (· < memLimit)).map fun a => (a, Config.freeByte n a)).map Prod.fst =
      (destBytes S).filter (· < memLimit) := by
  rw [List.map_map]
  exact List.map_id' _

/-- Unspecified destination bytes leave every byte outside the destination cells alone (R240, R271). -/
theorem read_freeDest_other (S : CmdRegs) (n : Nat) (m : Mem) (a : Nat) (h : S.d3.inCells S.unit a = false) :
    Mem.read (freeDest S n m) a = Mem.read m a := by
  refine Mem.read_writeAll_other _ _ _ ?_
  rw [freeDest_fst]
  exact fun hm => not_mem_destBytes S a h (List.mem_filter.mp hm).1

theorem wf_freeDest (S : CmdRegs) (n : Nat) (m : Mem) (hm : Mem.wf m) : Mem.wf (freeDest S n m) := by
  refine Mem.wf_writeAll _ _ hm fun p hp => ?_
  obtain ⟨a, ha, rfl⟩ := List.mem_map.mp hp
  simpa using (List.mem_filter.mp ha).2

theorem wf_destWrites (S : CmdRegs) (Y : Plane) (m : Mem) (hm : Mem.wf m) (hl : ∀ a ∈ destBytes S, a < memLimit) :
    Mem.wf (Mem.writeAll m (destWrites S Y)) := by
  refine Mem.wf_writeAll _ _ hm fun p hp => hl _ ?_
  rw [← destWrites_fst S Y]
  exact List.mem_map_of_mem hp

end Sys2Proof.Machine
end

