-- ==== Sys2Proof/Laws/Validate.lean ====
section
/-! SUPPORT. What a snapshot that passes validation satisfies (R233): its depth, shapes, pitches and ranges. -/

namespace Sys2Proof.Machine

/-- Validation passes exactly when no check fires (R233). -/
theorem validate_none_iff (b : Build) (op : Instr) (S : CmdRegs) :
    validate b op S = none ↔
      configBad b S = false ∧ geometryBad op S = false ∧ alignBad op S = false ∧
        capacityBad b op S = false ∧ overlapBad op S = false := by
  unfold validate
  cases configBad b S <;> cases geometryBad op S <;> cases alignBad op S <;> cases capacityBad b op S <;>
    cases overlapBad op S <;> simp

/-- A legal configuration has one of the five depths (R200). -/
theorem bits_of_configBad (b : Build) (S : CmdRegs) (h : configBad b S = false) :
    S.bits = 8 ∨ S.bits = 10 ∨ S.bits = 12 ∨ S.bits = 14 ∨ S.bits = 16 := by
  simp only [configBad, Bool.or_eq_false_iff, Bool.not_eq_false', Bool.or_eq_true, beq_iff_eq] at h
  tauto

/-- At a legal depth a sample up to P fits its cell (R200). -/
theorem peak_lt_unit (S : CmdRegs) (h : S.bits = 8 ∨ S.bits = 10 ∨ S.bits = 12 ∨ S.bits = 14 ∨ S.bits = 16) :
    S.peak < 256 ^ S.unit := by
  rcases h with h | h | h | h | h <;> simp [CmdRegs.peak, CmdRegs.unit, h]

/-- At a legal depth P = 2H - 1 (R200). -/
theorem peak_mid (S : CmdRegs) (h : S.bits = 8 ∨ S.bits = 10 ∨ S.bits = 12 ∨ S.bits = 14 ∨ S.bits = 16) :
    S.peak + 1 = 2 * S.mid ∧ 128 ≤ S.mid := by
  rcases h with h | h | h | h | h <;> simp [CmdRegs.peak, CmdRegs.mid, h]

/-- The effective radius is in 1 .. P (R28, R179). -/
theorem radius_of_configBad (b : Build) (S : CmdRegs) (h : configBad b S = false) :
    1 ≤ S.radius ∧ S.radius ≤ S.peak := by
  have hb := bits_of_configBad b S h
  simp only [configBad, Bool.or_eq_false_iff, decide_eq_false_iff_not] at h
  have h1 : ¬ S.peak < S.amnt.toNat := h.1.1.2
  have hp : 255 ≤ S.peak := by rcases hb with h | h | h | h | h <;> simp [CmdRegs.peak, h]
  unfold CmdRegs.radius
  split
  · omega
  · rename_i h0
    have : S.amnt.toNat ≠ 0 := fun h2 => h0 (BitVec.eq_of_toNat_eq (by simpa using h2))
    omega

/-- What code 3 rules out, for one used descriptor (R233). -/
theorem geometry_of_used (op : Instr) (S : CmdRegs) (h : geometryBad op S = false) (k : Slot)
    (hk : k ∈ usedSlots op S) :
    (S.desc k).width = S.d3.width ∧ (S.desc k).height = S.d3.height ∧
      S.cols * S.unit ≤ (S.desc k).pitch.toNat ∧
      (0 < S.cols → 0 < S.rows →
        (S.desc k).base.toNat + (S.rows - 1) * (S.desc k).pitch.toNat + S.cols * S.unit ≤ memLimit) := by
  have h1 := List.any_eq_false.mp h k hk
  simp only [Desc.badGeometry, Bool.not_eq_true, Bool.or_eq_false_iff, decide_eq_false_iff_not] at h1
  obtain ⟨⟨h1, h2⟩, h3⟩ := h1
  push Not at h1
  refine ⟨h1.1, h1.2, ?_, ?_⟩
  · rw [h1.1] at h2
    exact Nat.le_of_not_lt h2
  · intro hc hr
    rw [h1.1, h1.2] at h3
    simp only [CmdRegs.cols, CmdRegs.rows] at hc hr ⊢
    omega

/-- Every used sample lies inside host memory (R94, R233). -/
theorem addr_le_of_used (op : Instr) (S : CmdRegs) (h : geometryBad op S = false) (k : Slot)
    (hk : k ∈ usedSlots op S) (y x : Nat) (hy : y < S.rows) (hx : x < S.cols) :
    (S.desc k).addr S.unit y x + S.unit ≤ memLimit := by
  obtain ⟨-, -, -, h4⟩ := geometry_of_used op S h k hk
  have h4 := h4 (by omega) (by omega)
  have e1 : (x + 1) * S.unit ≤ S.cols * S.unit := Nat.mul_le_mul_right _ hx
  have e1' : (x + 1) * S.unit = x * S.unit + S.unit := by ring
  have e2 : y * (S.desc k).pitch.toNat ≤ (S.rows - 1) * (S.desc k).pitch.toNat :=
    Nat.mul_le_mul_right _ (by omega)
  simp only [Desc.addr]
  omega

theorem d3_mem_usedSlots (op : Instr) (S : CmdRegs) (h : op ≠ .nop) : .d3 ∈ usedSlots op S := by
  cases op <;> simp_all [usedSlots]

theorem usedSlots_of_inputSlots (op : Instr) (S : CmdRegs) (k : Slot) (h : k ∈ inputSlots op S) :
    k ∈ usedSlots op S := by
  cases op with
  | nop => simp [inputSlots] at h
  | _ => exact List.mem_append_left _ h

theorem destBytes_lt (op : Instr) (S : CmdRegs) (hop : op ≠ .nop) (h : geometryBad op S = false) :
    ∀ a ∈ destBytes S, a < memLimit := by
  intro a ha
  obtain ⟨y, hy, x, hx, k, hk, rfl⟩ := (mem_destBytes S a).mp ha
  have := addr_le_of_used op S h .d3 (d3_mem_usedSlots op S hop) y x hy hx
  simp only [CmdRegs.desc] at this
  omega

/-- A validated command performs no access outside host memory. -/
theorem reachesOutside_of_valid (op : Instr) (S : CmdRegs) (h : geometryBad op S = false) :
    reachesOutside op S = false := by
  refine List.any_eq_false.mpr fun a ha => ?_
  obtain ⟨k, hk, y, hy, x, hx, rfl⟩ := (mem_accesses _ _ _).mp ha
  have := addr_le_of_used op S h k hk y x hy hx
  simp only [decide_eq_true_eq]
  omega

end Sys2Proof.Machine
end

