-- ==== Sys2Proof/Laws/Commands.lean ====
section
/-! SUPPORT. What the shared operations of a command's life can do, said once: an accepted START, the end of a running
command, and the undisturbed end (R232, R240, R241). -/

namespace Sys2Proof.Machine

/-! ### START -/

theorem startCommand_valid (op : Instr) (s : State) (h : validate s.build op s.regs = none) :
    startCommand op s =
      (acceptStart s).setStatus { s.status.started with busy := true, effVw := effectiveVw s.build s.regs } := by
  simp [startCommand, h]

theorem startCommand_invalid (op : Instr) (s : State) (c : ErrCode) (h : validate s.build op s.regs = some c) :
    startCommand op s = raiseError c (acceptStart s) := by
  simp [startCommand, h]

/-- An idle command starts (R230). -/
theorem runCommand_idle (op : Instr) (k : Kernel) (s : State) (h : s.status.busy = false) :
    runCommand op k s = .next (startCommand op s) := by
  simp [runCommand, h]

/-- A BUSY command ends (R240, R241). -/
theorem runCommand_busy (op : Instr) (k : Kernel) (s : State) (h : s.status.busy = true) :
    runCommand op k s = finishCommand op k s := by
  simp [runCommand, h]

/-- Every command but NOP starts by its shared first phase on the idle core (R232). -/
theorem exec_idle (op : Instr) (s : State) (h : op ≠ .nop) (hb : s.status.busy = false) :
    exec op s = .next (startCommand op s) := by
  cases op <;> first | exact absurd rfl h | exact runCommand_idle _ _ _ hb

/-- Every command but NOP ends by its shared second phase, with a kernel of its own (R75). -/
theorem exec_busy (op : Instr) (s : State) (h : op ≠ .nop) (hb : s.status.busy = true) :
    ∃ k, exec op s = finishCommand op k s := by
  cases op <;> first | exact absurd rfl h | exact ⟨_, runCommand_busy _ _ _ hb⟩

/-! ### The end of a command -/

/-- All the ways a running command ends. -/
theorem finishCommand_cases (op : Instr) (k : Kernel) (s : State) :
    (reachesOutside op s.snap = true ∧ finishCommand op k s = .fault .outsideHostMemory) ∨
    (reachesOutside op s.snap = false ∧
      ((reachesWindow s.build op s.snap = true ∧ finishCommand op k s = .next (endInWindow s)) ∨
       (reachesWindow s.build op s.snap = false ∧
        ((∃ e es, failingAccesses s.build op s.snap = e :: es ∧ finishCommand op k s = .next (endBusError e es s)) ∨
         (failingAccesses s.build op s.snap = [] ∧
          (((s.breached || sampleAbovePeak s.mem op s.snap) = true ∧ finishCommand op k s = .next (endUnspecified s)) ∨
           ((s.breached || sampleAbovePeak s.mem op s.snap) = false ∧
            finishCommand op k s = .next (endNormally (k s.snap (readPlane s.mem s.snap)) s)))))))) := by
  unfold finishCommand
  cases reachesOutside op s.snap <;> cases reachesWindow s.build op s.snap <;>
    cases failingAccesses s.build op s.snap <;> cases s.breached || sampleAbovePeak s.mem op s.snap <;> simp

/-- No bus error: no access of the command fails (R241). -/
theorem failingAccesses_of_noBusError (op : Instr) (s : State) (h : NoBusError op s) :
    failingAccesses s.build op s.snap = [] := by
  refine List.filter_eq_nil_iff.mpr fun a ha => ?_
  obtain ⟨k, hk, y, hy, x, hx, rfl⟩ := (mem_accesses _ _ _).mp ha
  simp only [accessFails, Bool.not_eq_true]
  refine List.any_eq_false.mpr fun j hj => ?_
  simp [h k hk y hy x hx j (List.mem_range.mp hj)]

/-- Inputs in range: no sample read exceeds P (R65). -/
theorem sampleAbovePeak_of_inRange (op : Instr) (s : State) (h : InputsInRange op s) :
    sampleAbovePeak s.mem op s.snap = false := by
  refine List.any_eq_false.mpr fun a ha => ?_
  obtain ⟨k, hk, y, hy, x, hx, rfl⟩ := (mem_accesses _ _ _).mp ha
  have := h k hk y hy x hx
  simp only [sample] at this
  simp only [decide_eq_true_eq]
  omega

theorem reachesWindow_of_away (op : Instr) (s : State) (h : AwayFromWindow op s) :
    reachesWindow s.build op s.snap = false :=
  List.any_eq_false.mpr fun k hk => by simp [h k hk]

theorem Running.geometry {op : Instr} {s : State} (h : Running op s) : geometryBad op s.snap = false :=
  ((validate_none_iff _ _ _).mp h.2.1).2.1

theorem Running.config {op : Instr} {s : State} (h : Running op s) : configBad s.build s.snap = false :=
  ((validate_none_iff _ _ _).mp h.2.1).1

theorem Running.bits {op : Instr} {s : State} (h : Running op s) :
    s.snap.bits = 8 ∨ s.snap.bits = 10 ∨ s.snap.bits = 12 ∨ s.snap.bits = 14 ∨ s.snap.bits = 16 :=
  bits_of_configBad _ _ h.config

/-- A running command that nothing disturbs ends normally (R75, R241). -/
theorem runCommand_undisturbed (op : Instr) (k : Kernel) (s : State) (h : Running op s) (hu : Undisturbed op s) :
    runCommand op k s = .next (endNormally (k s.snap (readPlane s.mem s.snap)) s) := by
  obtain ⟨hb, hr, hw, hd⟩ := hu
  rw [runCommand_busy op k s h.1]
  simp [finishCommand, reachesOutside_of_valid op s.snap h.geometry, reachesWindow_of_away op s hw,
    failingAccesses_of_noBusError op s hb, hd, sampleAbovePeak_of_inRange op s hr]

/-- A normal end keeps every register but STATUS and sets DONE (R241). -/
theorem endNormally_ended (Y : Plane) (s : State) : EndedDone s (endNormally Y s) :=
  { kept := ⟨rfl, rfl, rfl, rfl, rfl, rfl, rfl, rfl, rfl⟩, status := rfl, irq := by simp [endNormally] }

@[simp] theorem endNormally_mem (Y : Plane) (s : State) :
    (endNormally Y s).mem = Mem.writeAll s.mem (destWrites s.snap Y) := rfl

/-- A normal end writes the destination plane and nothing else (R69, R75). -/
theorem endNormally_dest (op : Instr) (Y : Plane) (s : State) (hop : op ≠ .nop) (h : Running op s)
    (f : Nat → Nat → Int)
    (hf : ∀ y < s.snap.rows, ∀ x < s.snap.cols, (Y.at y x : Int) = f y x ∧ Y.at y x ≤ s.snap.peak) :
    DestHolds s.snap (endNormally Y s).mem f ∧ OnlyDestCells s.snap s.mem (endNormally Y s).mem := by
  refine ⟨fun y hy x hx => ?_, fun a ha => read_destWrites_other _ _ _ _ ha⟩
  obtain ⟨h1, h2⟩ := hf y hy x hx
  have hg := geometry_of_used op s.snap h.geometry .d3 (d3_mem_usedSlots op s.snap hop)
  rw [endNormally_mem, sample_destWrites s.snap Y s.mem h.2.2 hg.2.2.1
    (destBytes_lt op s.snap hop h.geometry) y x hy hx
    (Nat.lt_of_le_of_lt h2 (peak_lt_unit _ h.bits)), h1]

/-- The whole of an undisturbed end: a command whose kernel gives values in 0 .. P answers a next state with DONE, the
values in the destination and nothing else changed (R75, R241). -/
theorem runCommand_result (op : Instr) (k : Kernel) (s : State) (hop : op ≠ .nop) (h : Running op s)
    (hu : Undisturbed op s) (f : Nat → Nat → Int)
    (hf : ∀ y < s.snap.rows, ∀ x < s.snap.cols,
      ((k s.snap (readPlane s.mem s.snap)).at y x : Int) = f y x ∧
        (k s.snap (readPlane s.mem s.snap)).at y x ≤ s.snap.peak) :
    ∃ t, runCommand op k s = .next t ∧ EndedDone s t ∧ OnlyDestCells s.snap s.mem t.mem ∧
      DestHolds s.snap t.mem f :=
  have hd := endNormally_dest op (k s.snap (readPlane s.mem s.snap)) s hop h f hf
  ⟨_, runCommand_undisturbed op k s h hu, endNormally_ended _ s, hd.2, hd.1⟩

end Sys2Proof.Machine
end

