-- ==== Sys2Proof/Laws/Invariant.lean ====
section
/-! SUPPORT. How the invariant is carried along: the state after power-on has canonical memory, an update of the
model's own fields keeps the invariant, and a state without a running command needs only three of its parts. -/

namespace Sys2Proof.Machine

/-- Memory after power-on lists nothing. -/
theorem resetOf_mem_wf (b : Build) : Mem.wf (State.resetOf b).mem := ⟨List.Pairwise.nil, by simp [State.resetOf]⟩

/-- An unspecified scratch store has its shape (R35). -/
theorem freeScratch_shaped (b : Build) (n : Nat) : (freeScratch b n).shaped b := by
  simp [Scratch.shaped, freeScratch]

/-- The invariant does not depend on the model's own fields. -/
theorem State.Inv.congr {s t : State} (h : s.Inv) (hmem : t.mem = s.mem) (hirq : t.irq = s.irq)
    (hen : t.irqEn = s.irqEn) (hst : t.status = s.status) (hsnap : t.snap = s.snap) (hregs : t.regs = s.regs)
    (herr : t.erraddr = s.erraddr) (hb : t.build = s.build) (hsc : t.scratch = s.scratch)
    (hrst : t.rst = s.rst) : t.Inv := by
  refine ⟨hmem ▸ h.memory, by rw [hirq, hen, hst]; exact h.interrupt, ?_, by rw [hb, hsc]; exact h.scratch, ?_⟩
  · have hr := h.running
    unfold State.RunningRight at *
    rw [hst, hsnap, hregs, herr, hb]
    exact hr
  · have hh := h.held
    unfold State.HeldInReset at *
    rw [hrst, hen, hst, hregs, herr]
    exact hh

/-- A state that RST does not hold is not bound to the reset values. -/
theorem State.HeldInReset.of_released {t : State} (h : t.rst = false) : t.HeldInReset :=
  fun hr => by rw [h] at hr; cases hr

/-- A command runs only while RST is released (R270). -/
theorem State.Inv.released_of_busy {s : State} (h : s.Inv) (hb : s.status.busy = true) : s.rst = false := by
  by_contra hc
  rw [Bool.not_eq_false] at hc
  rw [(h.held hc).2.1] at hb
  cases hb

/-- With no command running the invariant says nothing of the snapshot. -/
theorem State.Inv.of_idle {t : State} (hmem : Mem.wf t.mem)
    (hirq : t.irq = (t.irqEn && (t.status.done || t.status.err))) (hidle : t.status.busy = false)
    (hsc : t.scratch.shaped t.build) (hheld : t.HeldInReset) : t.Inv :=
  ⟨hmem, hirq, (fun hb => by rw [hidle] at hb; cases hb), hsc, hheld⟩

/-- A reset restores the invariant (R270, R271). -/
theorem resetCore_inv {s : State} (h : s.Inv) : (resetCore s).Inv := by
  refine State.Inv.of_idle ?_ rfl rfl (freeScratch_shaped _ _) fun _ => ⟨rfl, rfl, rfl, rfl⟩
  rw [resetCore_mem]
  split
  · exact wf_freeDest _ _ _ h.memory
  · exact h.memory

/-- Driving RST keeps the invariant: asserted, it gives the reset state; released, it frees the core from it (R270). -/
theorem driveReset_inv {s : State} (h : s.Inv) (level : Bool) : (driveReset level s).Inv := by
  cases level with
  | true =>
    have hr := resetCore_inv h
    exact ⟨hr.memory, hr.interrupt, hr.running, hr.scratch, fun _ => ⟨rfl, rfl, rfl, rfl⟩⟩
  | false => exact ⟨h.memory, h.interrupt, h.running, h.scratch, .of_released rfl⟩

end Sys2Proof.Machine
end

