-- ==== Sys2Proof/Laws/Kernels.lean ====
section
/-! SUPPORT. The kernels on stored planes as the formulas of Safety.lean on samples, and the bounds and exactness facts
of the blend's arithmetic: what is cited instead of unfolding a kernel. -/

namespace Sys2Proof.Machine

/-! ### Reflection and the two blurs -/

/-- Reflection lands in the plane (R120). -/
theorem reflRow_lt (h : Nat) (i : Int) (hh : 1 ≤ h) : reflRow i h < h := by
  unfold reflRow
  split
  · omega
  · dsimp only
    have h1 := Int.emod_nonneg i (show (2 * ((h : Int) - 1)) ≠ 0 by omega)
    have h2 := Int.emod_lt_of_pos i (show (0 : Int) < 2 * ((h : Int) - 1) by omega)
    generalize i % (2 * ((h : Int) - 1)) = m at *
    split <;> omega

/-- A row of the plane is its own reflection (R120). -/
theorem reflRow_self (h i : Nat) (hi : i < h) : reflRow i h = i := by
  unfold reflRow
  split
  · omega
  · dsimp only
    rw [Int.emod_eq_of_lt (by omega) (by omega)]
    split <;> omega

/-- A stored plane holds the given values. -/
abbrev Plane.Holds (X : Plane) (S : CmdRegs) (F : Samples) : Prop :=
  ∀ y < S.rows, ∀ x < S.cols, (X.at y x : Int) = F y x

/-- The plane a command reads holds the samples of host memory (R15). -/
theorem readPlane_holds (s : State) (k : Slot) : (readPlane s.mem s.snap k).Holds s.snap (inputAt s k) := by
  intro y hy x hx
  rw [readPlane_at _ _ _ _ _ hy hx]
  rfl

theorem blur3_holds (S : CmdRegs) (X : Plane) (F : Samples) (hF : X.Holds S F) :
    (blur3 S.rows S.cols X).Holds S (threeTap S.rows F) := by
  intro y hy x hx
  have hr (i : Int) := reflRow_lt S.rows i (by omega)
  rw [blur3, Plane.at_make _ _ _ _ _ hy hx, blur3At, tap, tap, tap, threeTap, Int.add_zero, reflRow_self _ y hy,
    ← hF _ (hr _) x hx, ← hF _ hy x hx, ← hF _ (hr ((y : Int) + 1)) x hx, Nat.shiftRight_eq_div_pow, roundC3,
    show (y : Int) + -1 = y - 1 by ring]
  push_cast
  rfl

theorem blur5_holds (S : CmdRegs) (X : Plane) (F : Samples) (hF : X.Holds S F) :
    (blur5 S.rows S.cols X).Holds S (fiveTap S.rows F) := by
  intro y hy x hx
  have hr (i : Int) := reflRow_lt S.rows i (by omega)
  rw [blur5, Plane.at_make _ _ _ _ _ hy hx, blur5At, tap, tap, tap, tap, tap, fiveTap, Int.add_zero,
    reflRow_self _ y hy, ← hF _ (hr _) x hx, ← hF _ hy x hx, ← hF _ (hr ((y : Int) + 1)) x hx,
    ← hF _ (hr ((y : Int) - 1)) x hx, ← hF _ (hr ((y : Int) + 2)) x hx, Nat.shiftRight_eq_div_pow, roundC5,
    show (y : Int) + -1 = y - 1 by ring, show (y : Int) + -2 = y - 2 by ring]
  push_cast
  rfl

/-! ### The residual -/

theorem resid_holds (S : CmdRegs) (X Y : Plane) (F G : Samples) (hF : X.Holds S F) (hG : Y.Holds S G) :
    (resid S X Y).Holds S (difference S.mid S.peak F G) := by
  intro y hy x hx
  rw [resid, Plane.at_make _ _ _ _ _ hy hx, residSample, difference, hF y hy x hx, hG y hy x hx, clamp]
  omega

/-- A residual is in 0 .. P (R140). -/
theorem difference_range (mid peak : Nat) (F G : Samples) (y x : Nat) :
    0 ≤ difference mid peak F G y x ∧ difference mid peak F G y x ≤ peak := by
  unfold difference clamp
  omega

/-! ### The blend -/

/-- A reconstruction lies in its envelope (R180). -/
theorem reconstruct_range (base : Int) (add : F32) (lo hi : Int) (h : lo ≤ hi) :
    lo ≤ reconstruct base add lo hi ∧ reconstruct base add lo hi ≤ hi := by
  unfold reconstruct clamp
  cases add with
  | fin k =>
    dsimp only
    omega
  | inf neg => cases neg <;> simp <;> omega

/-- A division without remainder is not rounded. -/
theorem divNearestEven_exact (m d : Nat) (hd : 0 < d) : divNearestEven (m * d) d = m := by
  unfold divNearestEven
  simp [Nat.mul_div_cancel _ hd]
  omega

/-- The first magnitude that overflows is 2^128 in units of 2^-149. -/
theorem f32Overflow_eq : f32Overflow = 2 ^ 24 * 2 ^ 253 := by
  unfold f32Overflow f32One
  norm_num

end Sys2Proof.Machine
end

