-- ==== Sys2Proof/Laws/PerInstr.lean ====
section
/-! SUPPORT. Per command, as syntax: its word is well formed, it sits in the low four bits, and it decodes back to the
command, by itself and as the host numbers it (R91, R92, R99). -/

namespace Sys2Proof.Laws.Encoding

/-- What is said of every command's encoding. -/
def Statement (i : Instr) : Prop :=
  decode (encode i) = .ok i ∧ wellFormedWord (encode i) = true ∧ (encode i).toNat = (opcode i).toNat ∧
    decodeTableWord 32 (encode i).toNat = some i

theorem nop : Statement .nop := ⟨rfl, rfl, rfl, rfl⟩

theorem blur3 : Statement .blur3 := ⟨rfl, rfl, rfl, rfl⟩

theorem blur5 : Statement .blur5 := ⟨rfl, rfl, rfl, rfl⟩

theorem resid : Statement .resid := ⟨rfl, rfl, rfl, rfl⟩

theorem sbr : Statement .sbr := ⟨rfl, rfl, rfl, rfl⟩

theorem final : Statement .final := ⟨rfl, rfl, rfl, rfl⟩

theorem filter : Statement .filter := ⟨rfl, rfl, rfl, rfl⟩

end Sys2Proof.Laws.Encoding
end

