-- ==== Sys2Proof/Machine/HostProgram.lean ====
section
/-! DEFINITION. The host's notation: registers by name and the pseudo-operations with their expansions (R100, R102,
R103). -/

namespace Sys2Proof.Machine

/-- The offset of a register of the map; reserved offsets have no name (10_state.md, R30). -/
def offsetOf : Reg → BitVec 12
  | .id => 0x000
  | .caps => 0x004
  | .maxdim => 0x008
  | .ctrl => 0x00C
  | .status => 0x010
  | .cmd => 0x014
  | .cfg => 0x018
  | .amnt => 0x01C
  | .sstr => 0x020
  | .scl => 0x024
  | .erraddr => 0x028
  | .desc k f =>
    0x040 + 16 * (match k with | .d0 => 0 | .d1 => 1 | .d2 => 2 | .d3 => 3)
      + 4 * (match f with | .base => 0 | .pitch => 1 | .width => 2 | .height => 3)
  | .reserved => 0xFFC

/-- `WR reg, v` (R101). -/
def HostOp.wr (r : Reg) (v : Word) : HostOp := .regWrite (offsetOf r) 4 v

/-- `RD reg` (R101). -/
def HostOp.rd (r : Reg) : HostOp := .regRead (offsetOf r) 4

/-- `SETPLANE Dk, base, pitch, w, h` (R102). -/
def setPlane (k : Slot) (base pitch w h : Word) : List HostOp :=
  [.wr (.desc k .base) base, .wr (.desc k .pitch) pitch, .wr (.desc k .width) w, .wr (.desc k .height) h]

/-- The CFG word of `SETCFG bits, mode, eclip, vw` (R102). -/
def cfgWord (bits mode eclip vw : Word) : Word := bits ||| (mode <<< 5) ||| (eclip <<< 7) ||| (vw <<< 8)

/-- `SETCFG bits, mode, eclip, vw` (R102). -/
def setCfg (bits mode eclip vw : Word) : List HostOp := [.wr .cfg (cfgWord bits mode eclip vw)]

/-- `RUN op` for any number `op`, a command's or not, with the IRQ_EN value the program keeps (R102). -/
def runOp (op : Word) (en : Bool) : List HostOp := [.wr .cmd op, .wr .ctrl (startWord en)]

/-- `WAIT` (R102). -/
def waitIdle : List HostOp := [.poll (offsetOf .status) 0x1 0x0]

/-- `ACK` (R102). -/
def ackAll : List HostOp := [.wr .status 0xE]

/-- A command mnemonic used as an operation: RUN of its OP, then WAIT (R102, R103). -/
def runAndWait (i : Instr) (en : Bool) : List HostOp := runOp (encode i) en ++ waitIdle

end Sys2Proof.Machine
end

