-- ==== Sys2Proof/Laws/Port.lean ====
section
/-! SUPPORT. The register map in both directions, the descriptor registers, and what an overlap of two extents is. -/

namespace Sys2Proof.Machine

/-- The map of names to offsets undoes the map of offsets to names (10_state.md, section 2). -/
theorem offsetOf_regAt : ∀ off : BitVec 12, off.toNat % 4 = 0 → regAt off.toNat ≠ .reserved →
    offsetOf (regAt off.toNat) = off := by decide +kernel

/-- Two accepted offsets that name one register are one offset. -/
theorem regAt_injective (a b : BitVec 12) (ha : a.toNat % 4 = 0) (hb : b.toNat % 4 = 0)
    (h : regAt a.toNat = regAt b.toNat) (hr : regAt a.toNat ≠ .reserved) : a = b := by
  rw [← offsetOf_regAt a ha hr, h, offsetOf_regAt b hb (h ▸ hr)]

theorem Desc.get_set_same (d : Desc) (f : DescField) (v : Word) : (d.set f v).get f = v := by cases f <;> rfl

theorem Desc.get_set_other (d : Desc) (f g : DescField) (v : Word) (h : g ≠ f) : (d.set f v).get g = d.get g := by
  cases f <;> cases g <;> first | rfl | exact absurd rfl h

theorem CmdRegs.desc_setDesc_same (S : CmdRegs) (k : Slot) (d : Desc) : (S.setDesc k d).desc k = d := by
  cases k <;> rfl

theorem CmdRegs.desc_setDesc_other (S : CmdRegs) (k j : Slot) (d : Desc) (h : j ≠ k) :
    (S.setDesc k d).desc j = S.desc j := by
  cases k <;> cases j <;> first | rfl | exact absurd rfl h

/-- Two extents meet when they share a byte (R71). -/
theorem Extent.meets_iff (e f : Extent) : e.meets f = true ↔ ∃ a, e.has a = true ∧ f.has a = true := by
  simp only [Extent.meets, Extent.has, decide_eq_true_eq]
  constructor
  · rintro ⟨h1, h2, h3, h4⟩
    exact ⟨max e.lo f.lo, by omega⟩
  · rintro ⟨a, h1, h2⟩
    omega

/-- A write to a copied register on the idle core stores it (R26 to R30). -/
theorem writeSetup_idle (R : CmdRegs) (s : State) (h : s.status.busy = false) :
    writeSetup R s = { s with regs := R } := by
  simp [writeSetup, h]

/-- A write to a copied register while BUSY is dropped (R280). -/
theorem writeSetup_busy (R : CmdRegs) (s : State) (h : s.status.busy = true) : writeSetup R s = s.dropWrite := by
  simp [writeSetup, h]

/-- A host read of a byte in the register window gives 0 (R33; log entry 13). -/
theorem hostReadByte_window (a : Nat) (s : State) (h : (registerWindow s.build).has a = true) :
    hostReadByte a s = 0 := by
  simp [hostReadByte, h]

/-- A host read of a byte that is neither in the register window nor a running destination cell gives the byte (R76). -/
theorem hostReadByte_readable (a : Nat) (s : State) (hw : (registerWindow s.build).has a = false)
    (h : inRunningDest s a = false) : hostReadByte a s = Mem.read s.mem a := by
  simp [hostReadByte, hw, h]

/-- While RST is asserted the port takes no write (R270; log entry 24). -/
theorem portWrite_held (off : BitVec 12) (size : Nat) (v : Word) (s : State) (h : s.rst = true) :
    portWrite off size v s = .settle s := by
  simp [portWrite, h]

/-- A 32-bit write at a multiple of 4, out of reset, writes the register the offset names (R33). -/
theorem portWrite_accepted (off : BitVec 12) (v : Word) (s : State) (h : s.rst = false) (ha : off.toNat % 4 = 0) :
    portWrite off 4 v s = regWrite (regAt off.toNat) v s := by
  simp [portWrite, portAccepts, h, ha]

end Sys2Proof.Machine
end

