-- ==== Sys2Proof/Tests/Slice0.lean ====
section
/-! SUPPORT. The model's own tests, each a named theorem: command words written out bit by bit, the vectors of
95_test_vectors.md on one step, and for every obligation with hypotheses a state and operands that meet them all. -/

namespace Sys2Proof.Tests

open Sys2Proof Sys2Proof.Machine

/-! ### Encodings (30_encoding.md R91, R92, R98) -/

/-- The well-formedness check refuses a set reserved bit (95 E2). -/
theorem test_wellFormed_refuses_reserved_bits :
    wellFormedWord 0b00000000000000000000000000010001 = false ∧
    wellFormedWord 0b10000000000000000000000000000001 = false := by decide

/-- The well-formedness check refuses an unassigned opcode (95 E1). -/
theorem test_wellFormed_refuses_reserved_opcodes :
    wellFormedWord 0b00000000000000000000000000000111 = false ∧
    wellFormedWord 0b00000000000000000000000000001111 = false := by decide

theorem test_wellFormed_accepts_the_commands :
    wellFormedWord 0b00000000000000000000000000000000 = true ∧
    wellFormedWord 0b00000000000000000000000000000110 = true := by decide

theorem test_decode_nop : decode 0b00000000000000000000000000000000 = .ok .nop := rfl

theorem test_decode_blur3 : decode 0b00000000000000000000000000000001 = .ok .blur3 := rfl

theorem test_decode_blur5 : decode 0b00000000000000000000000000000010 = .ok .blur5 := rfl

theorem test_decode_resid : decode 0b00000000000000000000000000000011 = .ok .resid := rfl

theorem test_decode_sbr : decode 0b00000000000000000000000000000100 = .ok .sbr := rfl

theorem test_decode_final : decode 0b00000000000000000000000000000101 = .ok .final := rfl

theorem test_decode_filter : decode 0b00000000000000000000000000000110 = .ok .filter := rfl

theorem test_decode_reserved_opcode : decode 0b00000000000000000000000000000111 = .error .reservedOpcode := rfl

theorem test_decode_reserved_bits : decode 0b00000000000000000000000000010001 = .error .reservedBits := rfl

theorem test_decode_table_rows :
    decodeTableWord 32 0 = some .nop ∧ decodeTableWord 32 4 = some .sbr ∧ decodeTableWord 32 7 = none := by decide

/-! ### Small states -/

/-- A one-column plane of `h` rows with pitch `u`. -/
def column (base u h : Word) : Desc := { base := base, pitch := u, width := 1, height := h }

/-- Registers for one-column planes at 0x1000, 0x2000, 0x3000 and 0x4000. -/
def setup (i : Instr) (cfg u h : Word) : CmdRegs :=
  { CmdRegs.reset with
    cmd := encode i, cfg := cfg, d0 := column 0x1000 u h, d1 := column 0x2000 u h, d2 := column 0x3000 u h,
    d3 := column 0x4000 u h }

/-- Memory holding columns of `u`-byte samples. -/
def columns (u : Nat) (xs ys zs : List Nat) : Mem :=
  let cells (a : Nat) (vs : List Nat) : List (Nat × Byte) :=
    (List.range vs.length).flatMap fun y => cellBytes (a + y * u) u (vs.getD y 0)
  Mem.writeAll [] (cells 0x1000 xs ++ cells 0x2000 ys ++ cells 0x3000 zs)

/-- The idle core with a configuration. -/
def idle (R : CmdRegs) (m : Mem) : State := { State.reset with regs := R, mem := m }

/-- The core running a validated command: 8- or 16-bit scalar code 2 is the widest of the test platform. -/
def running (R : CmdRegs) (m : Mem) : State :=
  { State.reset with regs := R, snap := R, mem := m, status := { Status.reset with busy := true, effVw := 2 } }

/-- The destination column and STATUS after a command's end. -/
def outcome (r : Result) : List Nat × Nat :=
  match r with
  | .next t => ((List.range t.snap.rows).map fun y => sample t.mem t.snap.d3 t.snap.unit y 0, t.status.word.toNat)
  | _ => ([], 0)

/-- STATUS after a step that settles. -/
def statusAfter (a : Action) : Nat :=
  match a with
  | .settle t => t.status.word.toNat
  | _ => 0xFFFFFFFF

/-- STATUS after one step. -/
def statusOf (r : Result) : Nat := (outcome r).2

def blurColumn : State := running (setup .blur3 8 1 4) (columns 1 [0, 255, 0, 0] [] [])
def blur5Column : State := running (setup .blur5 8 1 4) (columns 1 [128, 128, 64, 0] [] [])
def residColumn : State := running (setup .resid 10 2 2) (columns 2 [1000, 0] [10, 1023] [])
def sbrColumn : State := running (setup .sbr 8 1 5) (columns 1 [50, 60, 200, 60, 50] [] [])
def finalColumn : State := running (setup .final 8 1 3) (columns 1 [0, 100, 124] [128, 127, 127] [120, 117, 117])
def filterColumn : State := running (setup .filter 8 1 4) (columns 1 [0, 255, 0, 0] [] [])

/-! ### One step of each command (95_test_vectors.md section 2) -/

/-- N1: STATUS = 0x00000002, and N4 with WDROP standing: 0x0000000A. -/
theorem test_nop_done :
    statusOf (exec .nop State.reset) = 0x2 ∧
    statusOf (exec .nop { State.reset with status := { Status.reset with wdrop := true } }) = 0xA := by decide

/-- N2: NOP with CFG = 0xFFFFFFFF checks nothing. -/
theorem test_nop_checks_nothing : statusOf (exec .nop (idle (setup .nop 0xFFFFFFFF 0 0) [])) = 0x2 := by decide

/-- B8. -/
theorem test_blur3_scenario_column : outcome (exec .blur3 blurColumn) = ([128, 128, 64, 0], 0x202) := by decide

/-- B14: 16-bit rounding at height 3. -/
theorem test_blur3_wide :
    (outcome (exec .blur3 (running (setup .blur3 16 2 3) (columns 2 [0, 65535, 0] [] [])))).1 = [32768, 32768, 32768] := by
  decide

/-- B9. -/
theorem test_blur5_scenario_column : outcome (exec .blur5 blur5Column) = ([120, 104, 68, 48], 0x202) := by decide

/-- B5: row 0 of a column of three reads rows 2, 1, 0, 1, 2. -/
theorem test_blur5_reflects_twice :
    (outcome (exec .blur5 (running (setup .blur5 8 1 3) (columns 1 [10, 20, 30] [] [])))).1 = [18, 20, 23] := by
  decide

/-- Q8, Q9. -/
theorem test_resid_saturates : outcome (exec .resid residColumn) = ([1023, 0], 0x202) := by decide

/-- Q2, Q3, Q4, Q7. -/
theorem test_resid_limits :
    (outcome (exec .resid (running (setup .resid 8 1 4) (columns 1 [255, 0, 127, 0] [0, 255, 0, 127] [])))).1
      = [255, 0, 255, 1] := by decide

/-- S2: keep, heavy, light, heavy, keep. -/
theorem test_sbr_branches : outcome (exec .sbr sbrColumn) = ([50, 93, 149, 93, 50], 0x202) := by decide

/-- S1: the ramp. -/
theorem test_sbr_ramp :
    (outcome (exec .sbr (running (setup .sbr 8 1 8) (columns 1 [0, 32, 64, 96, 128, 160, 192, 224] [] [])))).1
      = [8, 32, 64, 96, 128, 160, 192, 216] := by decide

/-- F1, F5, F6. -/
theorem test_final_plain : outcome (exec .final finalColumn) = ([133, 133, 127], 0x202) := by decide +kernel

/-- F17, F18, F19. -/
theorem test_final_external :
    (outcome (exec .final (running (setup .final 0x88 1 3)
      (columns 1 [100, 100, 100] [90, 110, 100] [95, 90, 40])))).1 = [100, 92, 40] := by decide +kernel

/-- L1. -/
theorem test_filter_scenario : outcome (exec .filter filterColumn) = ([133, 192, 54, 0], 0x202) := by decide +kernel

/-- L11: self-blur mode with the external reference. -/
theorem test_filter_sbr_external :
    (outcome (exec .filter (running (setup .filter 0xA8 1 5)
      (columns 1 [50, 60, 200, 60, 50] [50, 50, 50, 50, 50] [])))).1 = [50, 52, 101, 52, 50] := by decide +kernel

/-- F13, F14: a product that overflows binary32. -/
theorem test_blend_overflow :
    ({ eclip := false, sstr := f32OfWord 0x402CCCCD, scl := f32OfWord 0x7F7FFFFF, radius := 255, peak := 255 }
      : Blend).pixel 0 100 90 = 255 ∧
    ({ eclip := false, sstr := f32OfWord 0x7F7FFFFF, scl := f32OfWord 0x3E800000, radius := 255, peak := 255 }
      : Blend).pixel 200 100 90 = 200 := by decide +kernel

/-! ### Validation (95_test_vectors.md section 2.9) -/

/-- The base case of section 2.9, with changes. -/
def check (i : Instr) (f : CmdRegs → CmdRegs) : Option ErrCode :=
  validate Config.platform i (f { CmdRegs.reset with
    cmd := encode i
    d0 := { base := 0x1000, pitch := 16, width := 4, height := 4 }
    d3 := { base := 0x2000, pitch := 16, width := 4, height := 4 } })

/-- E4, E6, E7, E8, E10, E13. -/
theorem test_validate_config :
    check .blur3 (fun R => { R with cfg := 9 }) = some .config ∧
    check .blur3 (fun R => { R with cfg := 0x48 }) = some .config ∧
    check .blur3 (fun R => { R with cfg := 0x308 }) = some .config ∧
    check .blur3 (fun R => { R with cfg := 0x508 }) = some .config ∧
    check .blur3 (fun R => { R with amnt := 256 }) = some .config ∧
    check .blur3 (fun R => { R with sstr := 0x7F800000 }) = some .config := by decide

/-- E11, E15, E23, E31: accepted. -/
theorem test_validate_accepts :
    check .blur3 (fun R => { R with cfg := 10, amnt := 256 }) = none ∧
    check .blur3 (fun R => { R with sstr := 0x80000000 }) = none ∧
    check .blur3 (fun R => { R with d0 := { R.d0 with base := 0x1001 } }) = none ∧
    check .resid (fun R => { R with
      d0 := { R.d0 with width := 0 }, d1 := { R.d0 with base := 0x3000, width := 0 },
      d3 := { R.d3 with width := 0 } }) = none := by decide

/-- E17, E18, E19, E22: shape, pitch and range, before ALIGN. -/
theorem test_validate_geometry :
    check .blur3 (fun R => { R with d3 := { R.d3 with height := 3 } }) = some .geometry ∧
    check .blur3 (fun R => { R with cfg := 16, d0 := { R.d0 with pitch := 6 } }) = some .geometry ∧
    check .blur3 (fun R => { R with
      d0 := { base := 0xFFFFFFF0, pitch := 16, width := 4, height := 2 }, d3 := { R.d3 with height := 2 } })
        = some .geometry ∧
    check .blur3 (fun R => { R with
      cfg := 16, d0 := { R.d0 with base := 0x1001 }, d3 := { R.d3 with height := 3 } }) = some .geometry := by
  decide

/-- E20: an extent that ends at exactly 2^32. -/
theorem test_validate_last_byte :
    check .blur3 (fun R => { R with
      d0 := { base := 0xFFFFFFFC, pitch := 4, width := 4, height := 1 }, d3 := { R.d3 with height := 1 } })
        = none := by decide

/-- E21. -/
theorem test_validate_align :
    check .blur3 (fun R => { R with cfg := 16, d0 := { R.d0 with base := 0x1001 } }) = some .align := by decide

/-- E24, E25: only a command with scratch has a capacity. -/
theorem test_validate_capacity :
    check .sbr (fun R => { R with d0 := { base := 0x1000, pitch := 65, width := 65, height := 4 },
                                  d3 := { base := 0x2000, pitch := 65, width := 65, height := 4 } })
      = some .capacity ∧
    check .blur3 (fun R => { R with d0 := { base := 0x1000, pitch := 65, width := 65, height := 4 },
                                    d3 := { base := 0x2000, pitch := 65, width := 65, height := 4 } })
      = none := by decide

/-- E27, E28: interleaving cells overlap, touching extents do not. -/
theorem test_validate_overlap :
    check .blur3 (fun R => { R with d0 := { base := 0x1000, pitch := 32, width := 8, height := 4 },
                                    d3 := { base := 0x1010, pitch := 32, width := 8, height := 4 } })
      = some .overlap ∧
    check .blur3 (fun R => { R with d0 := { base := 0x1000, pitch := 32, width := 8, height := 4 },
                                    d3 := { base := 0x1068, pitch := 32, width := 8, height := 4 } })
      = none := by decide

/-! ### Registers, reset and errors (95_test_vectors.md sections 2.10 to 2.12) -/

/-- G7, G8. -/
theorem test_status_write_one_to_clear :
    (({ busy := false, done := true, err := true, wdrop := true, errcode := 0, effVw := 2 } : Status).w1c 4).word
      = 0x20A ∧
    (({ busy := false, done := false, err := true, wdrop := false, errcode := 7, effVw := 2 } : Status).w1c
      0xFFFFFFFF).word = 0x200 := by decide

/-- G9, G10, G1. -/
theorem test_port_reads :
    portRead 0x018 2 State.reset = 0 ∧ portRead 0x02C 4 State.reset = 0 ∧ portRead 0x000 4 State.reset = 0x56494E56 := by
  decide

/-- G4: SRST with the other bits set is a reset only. -/
theorem test_soft_reset_wins : statusAfter (portWrite 0x00C 4 7 { blurColumn with irqEn := true }) = 0 := by
  decide

/-- G11: a write to D0_BASE while BUSY is dropped. -/
theorem test_write_while_busy : statusAfter (portWrite 0x040 4 0x9000 blurColumn) = 0x209 := by decide

/-- Registers after reset (section 2.12). -/
theorem test_reset_registers :
    portRead 0x004 4 State.reset = 3 ∧ portRead 0x008 4 State.reset = 0x00400040 ∧
    portRead 0x018 4 State.reset = 8 ∧ portRead 0x020 4 State.reset = 0x402CCCCD ∧
    portRead 0x024 4 State.reset = 0x3E800000 := by decide

/-- X1: the running command of the vector. -/
def busErrorState : State :=
  { running { CmdRegs.reset with
      cmd := encode .blur3, cfg := 16
      d0 := { base := 0x1000, pitch := 8, width := 2, height := 2 }
      d3 := { base := 0x2000, pitch := 8, width := 2, height := 2 } } [] with
    build := { Config.platform with busErr := [(0x2009, 0x200A)] } }

/-- X1: STATUS = 0x274 and ERRADDR is the start of the only failing access. -/
theorem test_bus_error :
    failingAccesses busErrorState.build .blur3 busErrorState.snap = [0x2008] ∧
    statusOf (exec .blur3 busErrorState) = 0x274 := by decide

/-- A command placed at reset is what the first step runs: NOP ends with DONE, BLUR3 on the empty planes of reset
starts (section 2.12). -/
theorem test_first_step :
    statusOf (step (State.reset.withFetchWord 32 0)) = 0x2 ∧
    statusOf (step (State.reset.withFetchWord 32 1)) = 0x201 := by decide

/-- R102: SETPLANE D3, SETCFG 10, 1, 1, 2 and RUN as program P1 and the expansions write them. -/
theorem test_pseudo_operations :
    setPlane .d3 0x2000 16 1 4 =
      [.regWrite 0x070 4 0x2000, .regWrite 0x074 4 0x10, .regWrite 0x078 4 1, .regWrite 0x07C 4 4] ∧
    setCfg 10 1 1 2 = [.regWrite 0x018 4 0x2AA] ∧
    runOp 1 false = [.regWrite 0x014 4 1, .regWrite 0x00C 4 1] := by decide

/-- R102, R103: RUN of a number that is no command, with IRQ_EN kept at 1, and a mnemonic used as an operation. -/
theorem test_run_expansions :
    runOp 0x7 true = [.regWrite 0x014 4 0x7, .regWrite 0x00C 4 0x5] ∧
    runAndWait .blur3 false = [.regWrite 0x014 4 1, .regWrite 0x00C 4 1, .poll 0x010 1 0] := by decide

/-- What a register reads after a port access that settles. -/
def readAfter (a : Action) (off : BitVec 12) : Nat :=
  match a with
  | .settle t => (portRead off 4 t).toNat
  | _ => 0xFFFFFFFF

/-- R270: while RST is asserted a write of D0_BASE leaves it 0 and a START of an illegal word leaves STATUS 0; once it is
released both are taken. -/
theorem test_reset_held :
    let held : State := { State.reset with rst := true }
    let free := driveReset false held
    readAfter (portWrite 0x040 4 0x1000 held) 0x040 = 0 ∧ readAfter (portWrite 0x040 4 0x1000 free) 0x040 = 0x1000 ∧
    statusAfter (portWrite 0x00C 4 2 held) = 0 ∧
    statusAfter (portWrite 0x00C 4 1 { held with regs := { CmdRegs.reset with cmd := 7 } }) = 0 ∧
    statusAfter (portWrite 0x00C 4 1 { free with regs := { CmdRegs.reset with cmd := 7 } }) = 0x14 := by decide

/-! ### Witnesses: for every obligation with hypotheses, values that meet them all -/

theorem test_witness_DecoderFollowsTheOpcodeMap :
    16 ≤ (16 : Word).toNat ∧ (0 : Word).toNat = 0 ∧ (1 : Word).toNat = 1 ∧ (2 : Word).toNat = 2 ∧
    (3 : Word).toNat = 3 ∧ (4 : Word).toNat = 4 ∧ (5 : Word).toNat = 5 ∧ (6 : Word).toNat = 6 ∧
    (7 ≤ (7 : Word).toNat ∧ (7 : Word).toNat ≤ 15) ∧ (7 ≤ (15 : Word).toNat ∧ (15 : Word).toNat ≤ 15) := by decide

/-- A START of BLUR3 written by the host on the idle core. -/
def startState (w : Word) : State :=
  { State.reset with regs := { setup .blur3 8 1 4 with cmd := w }, host := [.regWrite 0x00C 4 5] }

theorem test_witness_StartStepRunsTheDecodedCommand :
    let s := startState 1
    s.rst = false ∧ s.status.busy = false ∧ mover s = .host ∧ s.host = .regWrite 0x00C 4 5 :: [] ∧ (5 : Word)[0] = true ∧
      (5 : Word)[1] = false ∧ decode s.regs.cmd = .ok .blur3 := by decide

theorem test_witness_CoreStepEndsTheSnapshotCommand :
    blurColumn.status.busy = true ∧ mover blurColumn = .core ∧ decode blurColumn.snap.cmd = .ok .blur3 := by
  decide

theorem test_witness_IllegalWordFailsAtStart :
    (startState 0x7).rst = false ∧ (startState 0x7).status.busy = false ∧ (5 : Word)[0] = true ∧ (5 : Word)[1] = false ∧
      decode (startState 0x7).regs.cmd = .error .reservedOpcode ∧
      decode (startState 0x11).regs.cmd = .error .reservedBits := by decide

theorem test_witness_StartCopiesRegistersIntoTheSnapshot : (idle (setup .blur3 8 1 4) []).status.busy = false := rfl

theorem test_witness_NopEndsAtOnceWithDone : State.reset.status.busy = false := rfl

theorem test_witness_ValidStartSetsBusy :
    ∀ op ∈ [Instr.blur3, .blur5, .resid, .sbr, .final, .filter], op ≠ .nop ∧ Ready op (idle (setup op 8 1 4) []) := by
  unfold Ready
  decide

/-- One idle state for each error code. -/
def failing (f : CmdRegs → CmdRegs) : State := idle (f (setup .sbr 16 2 4)) []

theorem test_witness_FailedStartReportsItsCode :
    let bad (f : CmdRegs → CmdRegs) (c : ErrCode) : Prop :=
      Instr.sbr ≠ .nop ∧ (failing f).status.busy = false ∧
        validate (failing f).build .sbr (failing f).regs = some c
    bad (fun R => { R with cfg := 9 }) .config ∧
    bad (fun R => { R with d3 := { R.d3 with height := 3 } }) .geometry ∧
    bad (fun R => { R with d0 := { R.d0 with base := 0x1001 } }) .align ∧
    bad (fun R => { R with d0 := { R.d0 with height := 65 }, d3 := { R.d3 with height := 65 } }) .capacity ∧
    bad (fun R => { R with d3 := R.d0 }) .overlap := by decide

theorem test_witness_EffectiveWidthIsForcedOrWidest :
    let auto := setup .blur3 8 1 4
    let forced := setup .blur3 0x108 1 4
    (vwLegal Config.platform auto.vw = true ∧ auto.vw = 0) ∧
    (vwLegal Config.platform forced.vw = true ∧ forced.vw ≠ 0) ∧
    (1 < 4 ∧ Config.platform.vwSupported.getLsbD 1 = true) := by decide

/-- The whole hypothesis of the six result statements. -/
def meetsAll (op : Instr) (s : State) : Prop := Running op s ∧ Undisturbed op s

theorem test_witness_Blur3WritesThreeTapAverages : meetsAll .blur3 blurColumn := by
  unfold meetsAll Running Undisturbed NoBusError InputsInRange AwayFromWindow
  decide

theorem test_witness_Blur5WritesFiveTapAverages : meetsAll .blur5 blur5Column := by
  unfold meetsAll Running Undisturbed NoBusError InputsInRange AwayFromWindow
  decide

theorem test_witness_ResidWritesClampedDifferences : meetsAll .resid residColumn := by
  unfold meetsAll Running Undisturbed NoBusError InputsInRange AwayFromWindow
  decide

theorem test_witness_SbrWritesTheRestoredPlane : meetsAll .sbr sbrColumn := by
  unfold meetsAll Running Undisturbed NoBusError InputsInRange AwayFromWindow
  decide

theorem test_witness_FinalWritesTheBlend : meetsAll .final finalColumn := by
  unfold meetsAll Running Undisturbed NoBusError InputsInRange AwayFromWindow
  decide

theorem test_witness_FilterRunsThePipeline : meetsAll .filter filterColumn := by
  unfold meetsAll Running Undisturbed NoBusError InputsInRange AwayFromWindow
  decide

/-- The other forms of FINAL and FILTER: external reference, and self-blur mode. -/
theorem test_witness_external_and_self_blur_forms :
    meetsAll .final (running (setup .final 0x88 1 1) (columns 1 [100] [90] [95])) ∧
    meetsAll .filter (running (setup .filter 0x88 1 1) (columns 1 [100] [90] [])) ∧
    meetsAll .filter (running (setup .filter 0x28 1 1) (columns 1 [100] [] [])) := by
  unfold meetsAll Running Undisturbed NoBusError InputsInRange AwayFromWindow
  decide

/-- A command on a plane without rows. -/
def emptyState : State := running (setup .blur3 8 1 0) []

theorem test_witness_EmptyPlaneEndsWithDone :
    Instr.blur3 ≠ .nop ∧ Running .blur3 emptyState ∧
      (emptyState.snap.d3.width = 0 ∨ emptyState.snap.d3.height = 0) := by
  unfold Running
  decide

/-- A breach and an input above P, away from bus errors. -/
def disturbedState : State := { running (setup .blur3 10 2 1) (columns 2 [65535] [] []) with breached := true }

theorem test_witness_NoDataDependentError :
    Instr.blur3 ≠ .nop ∧ Running .blur3 disturbedState ∧ NoBusError .blur3 disturbedState ∧
      AwayFromWindow .blur3 disturbedState := by
  unfold Running NoBusError AwayFromWindow
  decide

theorem test_witness_BusErrorReportsOneFailingAccess :
    Instr.blur3 ≠ .nop ∧ Running .blur3 busErrorState ∧ AwayFromWindow .blur3 busErrorState ∧
      ¬NoBusError .blur3 busErrorState := by
  unfold Running NoBusError AwayFromWindow
  decide

/-- The source plane lies in the register window. -/
def windowState : State :=
  running { setup .blur3 8 1 4 with d0 := column (BitVec.ofNat 32 Config.platform.regBase) 1 4 } []

theorem test_witness_WindowCommandStillEnds :
    Instr.blur3 ≠ .nop ∧ Running .blur3 windowState ∧ ¬AwayFromWindow .blur3 windowState := by
  unfold Running AwayFromWindow
  decide

theorem test_witness_InputPlanesAreNeverWritten :
    ∃ t, Instr.blur3 ≠ .nop ∧ Running .blur3 blurColumn ∧ exec .blur3 blurColumn = .next t ∧
      .d0 ∈ inputSlots .blur3 blurColumn.snap ∧
      ((blurColumn.snap.desc .d0).extent blurColumn.snap.unit).has 0x1003 = true :=
  have h := test_witness_Blur3WritesThreeTapAverages
  ⟨_, by decide, h.1, runCommand_undisturbed .blur3 blur3Kernel blurColumn h.1 h.2, by decide,
    by decide⟩

theorem test_witness_CommandEndFrame :
    ∃ t, Instr.blur3 ≠ .nop ∧ blurColumn.status.busy = true ∧ AwayFromWindow .blur3 blurColumn ∧
      exec .blur3 blurColumn = .next t ∧ t.status.errcode ≠ 7 :=
  have h := test_witness_Blur3WritesThreeTapAverages
  ⟨_, by decide, h.1.1, h.2.2.2.1, runCommand_undisturbed .blur3 blur3Kernel blurColumn h.1 h.2, by decide⟩

/-- The same command at the scalar width. -/
def scalarColumn : State := running (setup .blur3 0x108 1 4) (columns 1 [0, 255, 0, 0] [] [])

theorem test_witness_scalarColumn : meetsAll .blur3 scalarColumn := by
  unfold meetsAll Running Undisturbed NoBusError InputsInRange AwayFromWindow
  decide

theorem test_witness_VectorWidthChangesNoResult :
    ∃ t t', Instr.blur3 ≠ .nop ∧ meetsAll .blur3 blurColumn ∧ meetsAll .blur3 scalarColumn ∧
      scalarColumn.mem = blurColumn.mem ∧ scalarColumn.snap.bits = blurColumn.snap.bits ∧
      scalarColumn.snap.mode = blurColumn.snap.mode ∧ scalarColumn.snap.eclip = blurColumn.snap.eclip ∧
      scalarColumn.snap.amnt = blurColumn.snap.amnt ∧ scalarColumn.snap.sstr = blurColumn.snap.sstr ∧
      scalarColumn.snap.scl = blurColumn.snap.scl ∧ (∀ k, scalarColumn.snap.desc k = blurColumn.snap.desc k) ∧
      exec .blur3 blurColumn = .next t ∧ exec .blur3 scalarColumn = .next t' :=
  have h := test_witness_Blur3WritesThreeTapAverages
  have h' := test_witness_scalarColumn
  ⟨_, _, by decide, h, h', rfl, by decide, by decide, by decide, rfl, rfl, rfl, fun k => by cases k <;> rfl,
    runCommand_undisturbed .blur3 blur3Kernel blurColumn h.1 h.2,
    runCommand_undisturbed .blur3 blur3Kernel scalarColumn h'.1 h'.2⟩

/-- Section 2.1, heights 1 to 5. -/
theorem test_witness_ReflectionReachesTheseRows :
    (List.range 5).map (fun k => reflRow ((k : Int) - 2) 1) = [0, 0, 0, 0, 0] ∧
    (List.range 6).map (fun k => reflRow ((k : Int) - 2) 2) = [0, 1, 0, 1, 0, 1] ∧
    (List.range 7).map (fun k => reflRow ((k : Int) - 2) 3) = [2, 1, 0, 1, 2, 1, 0] ∧
    (List.range 9).map (fun k => reflRow ((k : Int) - 2) 5) = [2, 1, 0, 1, 2, 3, 4, 3, 2] := by decide

theorem test_witness_ReflectionStaysInThePlane : reflRow 7 3 < 3 ∧ 2 ≤ 2 ∧ reflRow (-7) 3 = reflRow 7 3 := by decide

theorem test_witness_BlursNeverExceedThePeak :
    let X : Samples := fun y _ => if y = 0 then 255 else 0
    (255 : Int) = 2 ^ 8 - 1 ∧ ∀ y x, 0 ≤ X y x ∧ X y x ≤ 255 := by
  refine ⟨by decide, fun y x => ?_⟩
  dsimp only
  split <;> decide

theorem test_witness_ResidualRangeLaw :
    1 ≤ 8 ∧ 128 = 2 ^ (8 - 1) ∧ 255 ≤ 2 * 128 - 1 ∧ 0 ≤ 2 * 128 - 1 := by decide

/-- S2: its keep, light and heavy samples (H = 128). -/
theorem test_witness_RestorerDecidesBySigns :
    (((123 : Int) < 109 ∧ ((128 : Nat) : Int) < 123 ∨ (109 : Int) < 123 ∧ (123 : Int) < ((128 : Nat) : Int))) ∧
    (¬((198 : Int) < 147 ∧ ((128 : Nat) : Int) < 198 ∨ (147 : Int) < 198 ∧ (198 : Int) < ((128 : Nat) : Int)) ∧
      |(198 : Int) - 147| < |(198 : Int) - (128 : Nat)|) ∧
    (¬((95 : Int) < 128 ∧ ((128 : Nat) : Int) < 95 ∨ (128 : Int) < 95 ∧ (95 : Int) < ((128 : Nat) : Int)) ∧
      |(95 : Int) - (128 : Nat)| ≤ |(95 : Int) - 128|) := by decide

theorem test_witness_RestorerNeedsNoSaturation :
    let X : Samples := fun y _ => if y = 0 then 255 else 0
    1 ≤ 128 ∧ ∀ y x, 0 ≤ X y x ∧ X y x ≤ 2 * ((128 : Nat) : Int) - 1 := by
  refine ⟨by decide, fun y x => ?_⟩
  dsimp only
  split <;> decide

theorem test_witness_FlatPlaneIsUnchanged :
    1 ≤ 128 ∧ (0 : Int) ≤ 255 ∧ (255 : Int) ≤ 2 * ((128 : Nat) : Int) - 1 := by decide

/-- The blend at 8 bits and the defaults. -/
def defaults : Blend :=
  { eclip := false, sstr := f32OfWord 0x402CCCCD, scl := f32OfWord 0x3E800000, radius := 255, peak := 255 }

/-- The same with the external reference. -/
def external : Blend := { defaults with eclip := true }

theorem test_witness_BlendStaysInTheEnvelope : (0 : Int) ≤ 255 ∧ (255 : Int) ≤ defaults.peak := by decide

/-- The entries of section 2.6. -/
theorem test_witness_LookupTableIsInvisible :
    (defaults.eclip = false ∧ defaults.peak = 255 ∧ 0 ≤ 255 ∧ 128 ≤ 255 ∧ 120 ≤ 255) ∧
    defaults.lutEntry 127 263 = 5 ∧ defaults.lutEntry 191 251 = -10 ∧ defaults.lutEntry 510 0 = 63 ∧
    defaults.lutEntry 0 510 = -63 := by decide +kernel

/-- F7 and its mirror: the two signals agree, above and below. -/
theorem test_witness_AgreeingSignalsStayBetween :
    (defaults.eclip = false ∧ defaults.radius = defaults.peak) ∧
    ((0 : Int) < 120 - 100 ∧ ∃ k, 0 < k ∧ defaults.signal 120 100 90 = .fin k) ∧
    ((80 : Int) - 100 < 0 ∧ ∃ k, k < 0 ∧ defaults.signal 80 100 110 = .fin k) :=
  ⟨by decide, ⟨by decide, f32OfInt 27, by decide +kernel, by decide +kernel⟩,
    ⟨by decide, f32OfInt (-27), by decide +kernel, by decide +kernel⟩⟩

/-- F14 and its mirror: an infinite second signal of the same sign. -/
theorem test_witness_AgreeingSignalsStayBetween_infinite :
    let p : Blend := { defaults with sstr := f32OfWord 0x7F7FFFFF }
    ((0 : Int) < 200 - 100 ∧ p.signal 200 100 90 = .inf false) ∧
    ((90 : Int) - 100 < 0 ∧ p.signal 90 100 110 = .inf true) := by decide +kernel

/-- F23, F11 and F24. -/
theorem test_witness_NoSignalGivesTheReference :
    ((0 : Int) ≤ 77 ∧ (77 : Int) ≤ defaults.peak ∧ (77 : Int) = 77) ∧
    (({ defaults with sstr := 0 } : Blend).eclip = false ∧ ({ defaults with sstr := 0 } : Blend).sstr = 0 ∧
      defaults.radius = defaults.peak ∧ (0 : Int) ≤ 50 ∧ (50 : Int) ≤ defaults.peak) := by decide

/-- F18. -/
theorem test_witness_ExternalBlendInIntegers :
    external.eclip = true ∧ external.scl = f32OfWord 0x3E800000 ∧ (0 : Int) ≤ 100 ∧ (100 : Int) ≤ 65535 ∧
    external.pixel 100 110 90 = 92 := by decide +kernel

/-- F5, F7 and F14 with others: a finite and an infinite second signal, agreeing and disagreeing, and a correction
that overflows. -/
theorem test_witness_BlendFollowsTheFormula :
    let huge := f32OfWord 0x7F7FFFFF
    (∃ k, defaults.signal 100 127 117 = .fin k ∧ f32OfInt (100 - 127) < 0 ∧ 0 < k) ∧
    (∃ k, defaults.signal 120 100 90 = .fin k ∧ 0 < f32OfInt (120 - 100) ∧ 0 < k) ∧
    ({ defaults with sstr := huge } : Blend).signal 200 100 90 = .inf false ∧ 0 < f32OfInt (200 - 100) ∧
    ({ defaults with sstr := huge } : Blend).signal 90 100 90 = .inf false ∧ f32OfInt (90 - 100) < 0 ∧
    f32Mul (f32OfInt (90 - 100)) huge = .inf true ∧
    f32Mul (f32OfInt 27) defaults.scl = .fin (27 * 2 ^ 147) :=
  ⟨⟨f32OfInt 27, by decide +kernel⟩, ⟨f32OfInt 27, by decide +kernel⟩, by decide +kernel⟩

/-- R13, R97: 1 and the largest finite value as the words give them, a finite product and one that
overflows, the square of the value just below 1 (its exact magnitude just below a power of two), and the largest finite
value times 1. -/
theorem test_witness_ProductsRoundToNearestEven :
    f32OfWord 0x3F800000 = 2 ^ 149 ∧ f32OfWord 0x7F7FFFFF = (2 ^ 24 - 1) * 2 ^ 253 ∧
    f32Mul (f32OfWord 0xBF800000) (f32OfWord 0x3F800001) = .fin (-(2 ^ 149 + 2 ^ 126)) ∧
    f32Mul (f32OfWord 0x7F7FFFFF) (f32OfWord 0xC0000000) = .inf true ∧
    f32Mul (2 ^ 149 - 2 ^ 125) (2 ^ 149 - 2 ^ 125) = .fin (2 ^ 149 - 2 ^ 126) ∧
    f32Mul ((2 ^ 24 - 1) * 2 ^ 253) (2 ^ 149) = .fin ((2 ^ 24 - 1) * 2 ^ 253) := by decide +kernel

/-- R97: a subnormal, 0.25 and a refused word's exponent. -/
theorem test_witness_ConfigurationFieldsSitAsMapped :
    (0x80000001 : Word).toNat / 2 ^ 23 % 256 = 0 ∧ f32OfWord 0x80000001 = -1 ∧
    (0x3E800000 : Word).toNat / 2 ^ 23 % 256 = 125 ∧ f32OfWord 0x3E800000 = 2 ^ 147 ∧
    (0x7F7FFFFF : Word).toNat / 2 ^ 23 % 256 = 254 := by decide +kernel

/-- The last register of the last descriptor, D3_HEIGHT at 0x07C. -/
theorem test_witness_RegistersReadAsMapped :
    let R := blurColumn.regs
    [R.d0, R.d1, R.d2, R.d3][3]? = some R.d3 ∧
    [R.d3.base, R.d3.pitch, R.d3.width, R.d3.height][3]? = some R.d3.height ∧
    (BitVec.ofNat 12 (0x040 + 16 * 3 + 4 * 3)) = 0x07C := ⟨rfl, rfl, by decide⟩

/-- The product 8 * 0.25 in units of 2^-149. -/
theorem test_witness_ExactProductsAreNotRounded :
    (f32OfInt 8 * f32OfWord 0x3E800000).natAbs = 8 * 2 ^ (149 + 147) ∧ 8 < 2 ^ 24 ∧ 147 ≤ 253 := by decide +kernel

/-- An offset of a register that a START copies. -/
def isSetup (off : BitVec 12) : Bool :=
  decide (off.toNat % 4 = 0 ∧ (0x014 ≤ off.toNat ∧ off.toNat ≤ 0x024 ∨ 0x040 ≤ off.toNat ∧ off.toNat ≤ 0x07C))

/-- A reserved offset. -/
def isReserved (off : BitVec 12) : Bool :=
  decide (off.toNat % 4 = 0 ∧ (0x02C ≤ off.toNat ∧ off.toNat ≤ 0x03C ∨ 0x080 ≤ off.toNat))

/-- An offset whose writes are ignored. -/
def isIgnored (off : BitVec 12) : Bool :=
  decide (off.toNat % 4 = 0 ∧ (off.toNat ≤ 0x008 ∨ 0x028 ≤ off.toNat ∧ off.toNat ≤ 0x03C ∨ 0x080 ≤ off.toNat))

theorem test_witness_IdleSetupWritesStoreTheWord :
    State.reset.rst = false ∧ State.reset.status.busy = false ∧ [0x014, 0x024, 0x040, 0x07C].all isSetup = true := by decide

/-- Both an idle and a BUSY state; a W1C of DONE on the idle core. -/
theorem test_witness_RegisterWritesFollowTheTable :
    State.reset.rst = false ∧ State.reset.status.busy = false ∧ blurColumn.rst = false ∧ blurColumn.status.busy = true ∧
    [0x014, 0x024, 0x040, 0x07C].all isSetup = true ∧
    ((2 : Word)[1] = true ∧ (5 : Word)[1] = false ∧ (5 : Word)[0] = true ∧ (4 : Word)[1] = false ∧
      (4 : Word)[0] = false) ∧
    [0x000, 0x008, 0x028, 0x03C, 0x080, 0xFFC].all isIgnored = true := by decide

theorem test_witness_StartWhileBusyIsDropped :
    let s : State := { blurColumn with host := [.regWrite 0x00C 4 5], turns := [.host] }
    s.rst = false ∧ s.status.busy = true ∧ mover s = .host ∧ s.host = .regWrite 0x00C 4 5 :: [] ∧ (5 : Word)[0] = true ∧
      (5 : Word)[1] = false := by decide

theorem test_witness_AccessesWithoutEffect :
    [0x02C, 0x03C, 0x080, 0xFFC].all isReserved = true ∧
    ((2 : Nat) ≠ 4 ∨ (0x018 : BitVec 12).toNat % 4 ≠ 0) ∧ ((4 : Nat) ≠ 4 ∨ (0x019 : BitVec 12).toNat % 4 ≠ 0) ∧
    let s : State := { State.reset with host := [.regRead 0x010 4] }
    mover s = .host ∧ s.host = .regRead 0x010 4 :: [] := by decide

theorem test_witness_SoftResetIsAFullReset :
    blurColumn.rst = false ∧ (7 : Word)[1] = true ∧ State.reset.status.busy = false := by decide

/-- A state held in reset that meets the invariant. -/
theorem test_witness_ResetInputHoldsTheCore :
    ({ State.reset with rst := true } : State).Inv ∧ ({ State.reset with rst := true } : State).rst = true ∧
    State.reset.status.busy = false :=
  ⟨{ memory := ⟨List.Pairwise.nil, by simp [State.reset, State.resetOf]⟩
     interrupt := rfl
     running := fun h => by cases h
     scratch := by simp [State.reset, State.resetOf, Scratch.shaped, Scratch.zero]
     held := fun _ => ⟨rfl, rfl, rfl, rfl⟩ }, rfl, rfl⟩

theorem test_witness_ResetRegisterValues : 0x028 ≤ (0x028 : BitVec 12).toNat ∧ 0x028 ≤ (0xFFC : BitVec 12).toNat := by
  decide

theorem test_witness_HostCellsAreLittleEndian :
    State.reset.status.busy = false ∧ Mem.wf State.reset.mem ∧ (0xFFFFFFFE : Word).toNat + 2 ≤ 2 ^ 32 ∧
    (registerWindow State.reset.build).has (0xFFFFFFFE : Word).toNat = false ∧
    (registerWindow State.reset.build).has ((0xFFFFFFFE : Word).toNat + 1) = false := by decide

/-- A byte inside the register window, one of the source and one past it, on a running and on the idle core. -/
theorem test_witness_HostByteWriteStoresAndBreaches :
    Mem.wf blurColumn.mem ∧ Mem.wf State.reset.mem ∧ State.reset.status.busy = false ∧
    (registerWindow blurColumn.build).has (0x40000FFF : Word).toNat = true ∧
    blurColumn.status.busy = true ∧ blurColumn.breached = false ∧ decode blurColumn.snap.cmd = .ok .blur3 ∧
    (registerWindow blurColumn.build).has (0x1003 : Word).toNat = false ∧
    (hostWriteByte 0x1003 0 blurColumn).breached = true ∧ (hostWriteByte 0x1004 0 blurColumn).breached = false := by
  decide

/-- A peer that writes this command's source, and one that reads its destination; one that only shares its source. -/
theorem test_witness_PeerBreachesOnOverlap :
    (blurColumn.status.busy = true ∧ blurColumn.breached = false ∧ decode blurColumn.snap.cmd = .ok .blur3) ∧
    peerConflict { lo := 0x1003, hi := 0x1004 } [] blurColumn = true ∧
    peerConflict { lo := 0x5000, hi := 0x5001 } [{ lo := 0x4000, hi := 0x4001 }] blurColumn = true ∧
    peerConflict { lo := 0x5000, hi := 0x5001 } [{ lo := 0x1000, hi := 0x1001 }] blurColumn = false := by
  decide

/-- The idle core, two bytes of a running command's source, a byte in the window, the last address but one. -/
theorem test_witness_HostReadsReturnTheByte :
    ((registerWindow State.reset.build).has (0x1000 : Word).toNat = false ∧ State.reset.status.busy = false) ∧
    ((registerWindow blurColumn.build).has (0x1001 : Word).toNat = false ∧
      blurColumn.snap.d3.inCells blurColumn.snap.unit (0x1001 : Word).toNat = false) ∧
    ((registerWindow blurColumn.build).has ((0x1001 : Word).toNat + 1) = false ∧
      blurColumn.snap.d3.inCells blurColumn.snap.unit ((0x1001 : Word).toNat + 1) = false) ∧
    (registerWindow State.reset.build).has (0x40000000 : Word).toNat = true ∧
    (0xFFFFFFFE : Word).toNat + 2 ≤ 2 ^ 32 := by decide

/-- A state that meets the invariant while a command runs. -/
theorem test_witness_invariant : blurColumn.Inv ∧ blurColumn.status.busy = true ∧ mover blurColumn = .core :=
  ⟨{ memory := test_witness_Blur3WritesThreeTapAverages.1.2.2
     interrupt := rfl
     running := fun _ => ⟨rfl, rfl, rfl, rfl, rfl, .blur3, by decide, rfl, by decide, by decide⟩
     scratch := by
       simp [blurColumn, running, State.reset, State.resetOf, Scratch.shaped, Scratch.zero]
     held := fun h => by cases h },
   rfl, rfl⟩

theorem test_witness_EveryStepKeepsTheInvariant : ∃ t, blurColumn.Inv ∧ step blurColumn = .next t :=
  have h := test_witness_Blur3WritesThreeTapAverages
  ⟨_, test_witness_invariant.1, runCommand_undisturbed .blur3 blur3Kernel blurColumn h.1 h.2⟩

theorem test_witness_BuildConstantsNeverChange : ∃ t, step blurColumn = .next t :=
  test_witness_EveryStepKeepsTheInvariant.imp fun _ h => h.2

theorem test_witness_CoreTurnEndsTheCommand :
    blurColumn.Inv ∧ blurColumn.status.busy = true ∧ mover blurColumn = .core := test_witness_invariant

theorem test_witness_CommandEndsInBoundedSteps : blurColumn.Inv ∧ blurColumn.status.busy = true :=
  ⟨test_witness_invariant.1, test_witness_invariant.2.1⟩

end Sys2Proof.Tests
end

/-! PROOFS of the scope family: the build constants, the host's byte write, the effective vector width, the bus-error
end, the vector width's invisibility, and the binary32 product with the integer form of the blend. -/

namespace Sys2Proof.Machine

/-! ### What an action leads to -/

/-- Every state an action leads to, settled or about to run a command, has a property. -/
def Action.All (P : State → Prop) : Action → Prop
  | .settle s => P s
  | .stop _ => True
  | .run _ s => P s

@[simp] theorem Action.all_settle (P : State → Prop) (s : State) : (Action.settle s).All P ↔ P s := Iff.rfl
@[simp] theorem Action.all_stop (P : State → Prop) (f : Fault) : (Action.stop f).All P := trivial
@[simp] theorem Action.all_run (P : State → Prop) (i : Instr) (s : State) : (Action.run i s).All P ↔ P s := Iff.rfl

/-- A step is what its action settles on or what the command its action runs leads to. -/
theorem step_eq_next {s t : State} (h : step s = .next t) :
    nextAction s = .settle t ∨ ∃ i u, nextAction s = .run i u ∧ exec i u = .next t := by
  unfold step at h
  cases ha : nextAction s with
  | settle u => rw [ha] at h; cases h; exact .inl rfl
  | stop f => rw [ha] at h; cases h
  | run i u => rw [ha] at h; exact .inr ⟨i, u, rfl, h⟩

/-! ### The build constants (R273) -/

@[simp] theorem startIllegal_build (s : State) : (startIllegal s).build = s.build := rfl

@[simp] theorem writeSetup_build (R : CmdRegs) (s : State) : (writeSetup R s).build = s.build := by
  cases h : s.status.busy with
  | false => rw [writeSetup_idle R s h]
  | true => rw [writeSetup_busy R s h, dropWrite_build]

@[simp] theorem startCommand_build (op : Instr) (s : State) : (startCommand op s).build = s.build := by
  cases h : validate s.build op s.regs with
  | none => rw [startCommand_valid op s h]; rfl
  | some c => rw [startCommand_invalid op s c h]; rfl

/-- Every way a command ends keeps the build. -/
theorem finishCommand_build {op : Instr} {k : Kernel} {s t : State} (h : finishCommand op k s = .next t) :
    t.build = s.build := by
  obtain ⟨-, hf⟩ | ⟨-, ⟨-, hf⟩ | ⟨-, ⟨e, es, -, hf⟩ | ⟨-, ⟨-, hf⟩ | ⟨-, hf⟩⟩⟩⟩ := finishCommand_cases op k s <;>
    rw [hf] at h <;> cases h <;> rfl

theorem exec_build {op : Instr} {s t : State} (h : exec op s = .next t) : t.build = s.build := by
  by_cases hop : op = .nop
  · subst hop
    cases h
    split <;> rfl
  · cases hb : s.status.busy with
    | false =>
      rw [exec_idle op s hop hb] at h
      cases h
      exact startCommand_build op s
    | true =>
      obtain ⟨k, hk⟩ := exec_busy op s hop hb
      exact finishCommand_build (hk ▸ h)

theorem portStart_build (s : State) : (portStart s).All (·.build = s.build) := by
  unfold portStart
  split
  · simp
  · cases decode s.regs.cmd <;> simp

theorem writeCtrl_build (v : Word) (s : State) : (writeCtrl v s).All (·.build = s.build) := by
  unfold writeCtrl
  dsimp only
  split
  · simp
  · split
    · exact portStart_build (s.setIrqEn v[2])
    · simp

theorem regWrite_build (r : Reg) (v : Word) (s : State) : (regWrite r v s).All (·.build = s.build) := by
  cases r with
  | ctrl => exact writeCtrl_build v s
  | _ => simp [regWrite]

theorem portWrite_build (off : BitVec 12) (size : Nat) (v : Word) (s : State) :
    (portWrite off size v s).All (·.build = s.build) := by
  unfold portWrite
  split
  · simp
  · split
    · exact regWrite_build _ v s
    · simp

@[simp] theorem hostWriteByte_build (a : Nat) (v : Byte) (s : State) : (hostWriteByte a v s).build = s.build := by
  unfold hostWriteByte
  split <;> rfl

theorem hostOp_build (op : HostOp) (s : State) : (hostOp op s).All (·.build = s.build) := by
  cases op with
  | regWrite off size v => exact portWrite_build off size v s
  | poll off mask val => simp only [hostOp]; split <;> simp
  | memW16 a v => simp only [hostOp]; split <;> simp
  | memR16 a => simp only [hostOp]; split <;> simp
  | _ => simp [hostOp]

theorem hostMove_build (s : State) : (hostMove s).All (·.build = s.build) := by
  unfold hostMove
  cases s.host with
  | nil => simp
  | cons op rest => exact hostOp_build op { s with host := rest }

theorem coreMove_build (s : State) : (coreMove s).All (·.build = s.build) := by
  unfold coreMove
  split
  · cases decode s.snap.cmd <;> simp
  · simp

theorem nextAction_build (s : State) : (nextAction s).All (·.build = s.build) := by
  unfold nextAction
  cases mover s with
  | host => exact hostMove_build { s with turns := s.turns.tail }
  | core => exact coreMove_build { s with turns := s.turns.tail }

/-- Settles O58: neither the action of a step nor the command it runs touches the build. -/
theorem buildConstantsNeverChange : Obligations.BuildConstantsNeverChange := by
  unfold Obligations.BuildConstantsNeverChange
  intro s t h
  have hb := nextAction_build s
  rcases step_eq_next h with ha | ⟨i, u, ha, hx⟩
  · rwa [ha] at hb
  · rw [ha] at hb
    exact (exec_build hx).trans hb

/-! ### The host's byte write (R76, R77) -/

/-- In the register window a host byte write changes nothing (R33; log entry 13). -/
theorem hostWriteByte_window (a : Nat) (v : Byte) (s : State) (h : (registerWindow s.build).has a = true) :
    hostWriteByte a v s = s := by
  simp [hostWriteByte, h]

/-- Outside it the byte is stored and a breach of R76 recorded (log entry 14). -/
theorem hostWriteByte_memory (a : Nat) (v : Byte) (s : State) (h : (registerWindow s.build).has a = false) :
    hostWriteByte a v s =
      { s with mem := Mem.write s.mem a v
               breached := s.breached || (runningExtents s).any (·.has a) } := by
  simp [hostWriteByte, h]

theorem runningExtents_idle (s : State) (h : s.status.busy = false) : runningExtents s = [] := by
  simp [runningExtents, h]

theorem runningExtents_busy (s : State) (i : Instr) (h : s.status.busy = true) (hi : decode s.snap.cmd = .ok i) :
    runningExtents s = (usedSlots i s.snap).map fun k => (s.snap.desc k).extent s.snap.unit := by
  simp [runningExtents, h, hi]

/-- Settles O53, by the two cases of the byte write and the laws of one memory write. -/
theorem hostByteWriteStoresAndBreaches : Obligations.HostByteWriteStoresAndBreaches := by
  unfold Obligations.HostByteWriteStoresAndBreaches
  intro s a v hm
  refine ⟨fun hw => ?_, fun hw => ?_⟩
  · rw [hostOp, hostWriteByte_window a.toNat v s hw]
  · refine ⟨_, _, congrArg Action.settle (hostWriteByte_memory a.toNat v s hw), Mem.wf_write _ _ _ hm a.isLt,
      Mem.read_write_same _ _ _ hm.1, fun c hc => Mem.read_write_other _ _ _ _ hc, fun hidle => ?_,
      fun i hbusy hflag hi => ?_⟩
    · simp [runningExtents_idle s hidle]
    · simp [runningExtents_busy s i hbusy hi, hflag]

/-! ### The effective vector width (R202) -/

/-- The scalar width is always built (R10). -/
theorem vwSupported_scalar (b : Build) : b.vwSupported[0] = true := by
  rw [Build.vwSupported, BitVec.getElem_append]
  rfl

/-- The widest width is a built one, and no built one is wider (R202). -/
theorem widestVw_spec (b : Build) :
    1 ≤ (widestVw b).toNat ∧ b.vwSupported.getLsbD ((widestVw b).toNat - 1) = true ∧
      ∀ k, k < 4 → b.vwSupported.getLsbD k = true → k + 1 ≤ (widestVw b).toNat := by
  have h0 := vwSupported_scalar b
  unfold widestVw
  generalize b.vwSupported = sup at *
  revert sup
  decide

/-- A forced width of a legal VW field is the effective width (R202). -/
theorem effectiveVw_forced (b : Build) (S : CmdRegs) (hl : vwLegal b S.vw = true) (h : S.vw ≠ 0) :
    (effectiveVw b S).toNat = S.vw := by
  have h4 : S.vw ≤ 4 := by
    simp only [vwLegal, decide_eq_true_eq] at hl
    omega
  rw [effectiveVw, if_neg h, BitVec.toNat_ofNat]
  omega

/-- Settles O15: the forced code is legal, so it fits its field, and auto takes the widest width. -/
theorem effectiveWidthIsForcedOrWidest : Obligations.EffectiveWidthIsForcedOrWidest := by
  unfold Obligations.EffectiveWidthIsForcedOrWidest
  intro b S hl
  refine ⟨effectiveVw_forced b S hl, fun h => ?_⟩
  rw [effectiveVw, if_pos h]
  exact widestVw_spec b

/-! ### The bus-error end (R240) -/

/-- The erroneous accesses are the used samples with a failing byte (R14, R240). -/
theorem mem_failingAccesses (b : Build) (op : Instr) (S : CmdRegs) (a : Nat) :
    a ∈ failingAccesses b op S ↔
      ∃ k ∈ usedSlots op S, ∃ y < S.rows, ∃ x < S.cols, ∃ j < S.unit,
        b.busErrAt ((S.desc k).addr S.unit y x + j) = true ∧ a = (S.desc k).addr S.unit y x := by
  simp only [failingAccesses, runAccesses, List.mem_filter, mem_accesses, accessFails, List.any_eq_true,
    List.mem_range]
  constructor
  · rintro ⟨⟨k, hk, y, hy, x, hx, rfl⟩, j, hj, hb⟩
    exact ⟨k, hk, y, hy, x, hx, j, hj, hb, rfl⟩
  · rintro ⟨k, hk, y, hy, x, hx, j, hj, hb, rfl⟩
    exact ⟨⟨k, hk, y, hy, x, hx, rfl⟩, j, hj, hb⟩

/-- A byte with a bus error makes some access erroneous (R240). -/
theorem failingAccesses_of_busError (op : Instr) (s : State) (h : ¬NoBusError op s) :
    failingAccesses s.build op s.snap ≠ [] := by
  unfold NoBusError at h
  push Not at h
  obtain ⟨k, hk, y, hy, x, hx, j, hj, hb⟩ := h
  exact List.ne_nil_of_mem
    ((mem_failingAccesses _ _ _ _).mpr ⟨k, hk, y, hy, x, hx, j, hj, by simpa using hb, rfl⟩)

/-- A validated command away from the register window that meets a bus error takes the bus-error end (R240). -/
theorem exec_busError (op : Instr) (s : State) (hop : op ≠ .nop) (hr : Running op s) (hw : AwayFromWindow op s)
    (he : ¬NoBusError op s) :
    ∃ e es, failingAccesses s.build op s.snap = e :: es ∧ exec op s = .next (endBusError e es s) := by
  obtain ⟨k, hk⟩ := exec_busy op s hop hr.1
  obtain ⟨e, es, hf⟩ := List.exists_cons_of_ne_nil (failingAccesses_of_busError op s he)
  refine ⟨e, es, hf, ?_⟩
  simp [hk, finishCommand, reachesOutside_of_valid op s.snap hr.geometry, reachesWindow_of_away op s hw, hf]

/-- ERRADDR after a bus error is one of the erroneous accesses, when they are host addresses (R31, R240). -/
theorem endBusError_erraddr (e : Nat) (es : List Nat) (s : State) (hl : ∀ a ∈ e :: es, a < memLimit) :
    (endBusError e es s).erraddr.toNat ∈ e :: es := by
  have hlt : Config.freeIndex s.draws % (e :: es).length < (e :: es).length := Nat.mod_lt _ (by simp)
  have hmem : (e :: es).getD (Config.freeIndex s.draws % (e :: es).length) e ∈ e :: es := by
    rw [List.getD_eq_getElem _ _ hlt]
    exact List.getElem_mem hlt
  have hval : (endBusError e es s).erraddr.toNat =
      (e :: es).getD (Config.freeIndex s.draws % (e :: es).length) e := by
    simp only [endBusError, raiseError_erraddr, BitVec.toNat_ofNat]
    exact Nat.mod_eq_of_lt (hl _ hmem)
  rwa [hval]

/-- Settles O24: the end is the bus-error end, whose pick is an erroneous access inside host memory. -/
theorem busErrorReportsOneFailingAccess : Obligations.BusErrorReportsOneFailingAccess := by
  unfold Obligations.BusErrorReportsOneFailingAccess
  intro op s hop hr hw he
  obtain ⟨e, es, hf, hx⟩ := exec_busError op s hop hr hw he
  have hlimit : ∀ a ∈ e :: es, a < memLimit := by
    intro a ha
    obtain ⟨k, hk, y, hy, x, hx, j, hj, -, rfl⟩ := (mem_failingAccesses _ _ _ _).mp (hf ▸ ha)
    have := addr_le_of_used op s.snap hr.geometry k hk y x hy hx
    omega
  have hpick := endBusError_erraddr e es s hlimit
  rw [← hf] at hpick
  exact ⟨_, hx, rfl, raiseError_irq _ _, (mem_failingAccesses _ _ _ _).mp hpick, rfl, rfl, rfl,
    fun a ha => read_freeDest_other _ _ _ a ha⟩

/-! ### The vector width (R203) -/

/-- The rule of each command; NOP, which has none, writes nothing (R92). -/
def kernelOf : Instr → Kernel
  | .nop => fun _ _ => []
  | .blur3 => blur3Kernel
  | .blur5 => blur5Kernel
  | .resid => residKernel
  | .sbr => sbrKernel
  | .final => finalKernel
  | .filter => filterKernel

theorem exec_eq_runCommand (op : Instr) (s : State) (h : op ≠ .nop) :
    exec op s = runCommand op (kernelOf op) s := by
  cases op with
  | nop => exact absurd rfl h
  | _ => rfl

/-- Two snapshots agree in every field but CMD and CFG.VW. -/
structure SameButWidth (S S' : CmdRegs) : Prop where
  bits : S'.bits = S.bits
  mode : S'.mode = S.mode
  eclip : S'.eclip = S.eclip
  amnt : S'.amnt = S.amnt
  sstr : S'.sstr = S.sstr
  scl : S'.scl = S.scl
  desc : ∀ k, S'.desc k = S.desc k

namespace SameButWidth

variable {S S' : CmdRegs} (h : SameButWidth S S')

include h

theorem unit : S'.unit = S.unit := by rw [CmdRegs.unit, CmdRegs.unit, h.bits]

theorem mid : S'.mid = S.mid := by rw [CmdRegs.mid, CmdRegs.mid, h.bits]

theorem peak : S'.peak = S.peak := by rw [CmdRegs.peak, CmdRegs.peak, h.bits]

theorem radius : S'.radius = S.radius := by rw [CmdRegs.radius, CmdRegs.radius, h.amnt, h.peak]

theorem blend : S'.blend = S.blend := by
  rw [CmdRegs.blend, CmdRegs.blend, h.eclip, h.sstr, h.scl, h.radius, h.peak]

theorem d3 : S'.d3 = S.d3 := h.desc .d3

theorem rows : S'.rows = S.rows := by rw [CmdRegs.rows, CmdRegs.rows, h.d3]

theorem cols : S'.cols = S.cols := by rw [CmdRegs.cols, CmdRegs.cols, h.d3]

theorem readPlane (m : Mem) : readPlane m S' = readPlane m S := by
  funext k
  simp only [Machine.readPlane, h.rows, h.cols, h.unit, h.desc]

theorem destWrites (Y : Plane) : destWrites S' Y = destWrites S Y := by
  simp only [Machine.destWrites, h.rows, h.cols, h.unit, h.d3]

theorem resid (X Y : Plane) : resid S' X Y = resid S X Y := by
  simp only [Machine.resid, h.rows, h.cols, h.mid, h.peak]

theorem sbr (X : Plane) : sbr S' X = sbr S X := by
  simp only [Machine.sbr, h.rows, h.cols, h.mid, h.resid]

theorem finalPlane (p : Blend) (X B R : Plane) : finalPlane S' p X B R = finalPlane S p X B R := by
  simp only [Machine.finalPlane, h.rows, h.cols]

theorem stageA (X : Plane) : stageA S' X = stageA S X := by
  simp only [Machine.stageA, h.rows, h.cols, h.mode, h.sbr]

/-- No command's rule reads CMD or CFG.VW (R203). -/
theorem kernelOf (op : Instr) (read : Slot → Plane) : kernelOf op S' read = kernelOf op S read := by
  cases op with
  | nop => rfl
  | blur3 => simp only [Machine.kernelOf, blur3Kernel, h.rows, h.cols]
  | blur5 => simp only [Machine.kernelOf, blur5Kernel, h.rows, h.cols]
  | resid => exact h.resid _ _
  | sbr => exact h.sbr _
  | final => simp only [Machine.kernelOf, finalKernel, h.blend, h.finalPlane]
  | filter =>
    simp only [Machine.kernelOf, filterKernel, h.blend, h.eclip, h.rows, h.cols, h.stageA, h.finalPlane]

end SameButWidth

/-- What an undisturbed run leaves in memory: the destination plane its rule gives (R75). -/
theorem exec_undisturbed_mem {op : Instr} {s t : State} (hop : op ≠ .nop) (hr : Running op s)
    (hu : Undisturbed op s) (hx : exec op s = .next t) :
    t.mem = Mem.writeAll s.mem (destWrites s.snap (kernelOf op s.snap (readPlane s.mem s.snap))) := by
  rw [exec_eq_runCommand op s hop, runCommand_undisturbed op _ s hr hu] at hx
  cases hx
  rfl

/-- Settles O28: the memory an undisturbed run leaves depends on the snapshot only through fields other than CMD and
CFG.VW. -/
theorem vectorWidthChangesNoResult : Obligations.VectorWidthChangesNoResult := by
  unfold Obligations.VectorWidthChangesNoResult
  intro op s s' t t' hop hr hr' hu hu' hmem hbits hmode heclip hamnt hsstr hscl hdesc hx hx'
  have h : SameButWidth s.snap s'.snap := ⟨hbits, hmode, heclip, hamnt, hsstr, hscl, hdesc⟩
  rw [exec_undisturbed_mem hop hr hu hx, exec_undisturbed_mem hop hr' hu' hx', hmem, h.readPlane, h.kernelOf,
    h.destWrites]

/-! ### The binary32 product (R13) -/

/-- The rounded quotient `q` is within half a unit of `n`, and even when it is exactly half a unit away. -/
theorem divNearestEven_spec (n u : Nat) (hu : 0 < u) :
    2 * (n - divNearestEven n u * u) ≤ u ∧ 2 * (divNearestEven n u * u - n) ≤ u ∧
      (2 * (n - divNearestEven n u * u) = u ∨ 2 * (divNearestEven n u * u - n) = u → divNearestEven n u % 2 = 0) := by
  have hn := Nat.div_add_mod' n u
  have hr := Nat.mod_lt n hu
  unfold divNearestEven
  dsimp only
  split
  · have hs : (n / u + 1) * u = n / u * u + u := Nat.succ_mul _ _
    omega
  · omega

theorem f32Drop_zero : f32Drop 0 = 0 := rfl

/-- The unit in the last place leaves an exact magnitude at most 24 significant bits. -/
theorem lt_f32Drop (n : Nat) : n < 2 ^ 24 * 2 ^ (149 + f32Drop n) := by
  rw [← Nat.pow_add]
  exact Nat.lt_log2_self.trans_le (Nat.pow_le_pow_right (by decide) (by unfold f32Drop; omega))

/-- A unit past 2^-149 leaves it no fewer than 24 significant bits. -/
theorem f32Drop_le (n : Nat) (h : f32Drop n ≠ 0) : 2 ^ 23 * 2 ^ (149 + f32Drop n) ≤ n := by
  have hl : 23 + (149 + f32Drop n) = Nat.log2 n := by
    unfold f32Drop at *
    omega
  have hn : n ≠ 0 := by
    rintro rfl
    exact h f32Drop_zero
  rw [← Nat.pow_add, hl]
  exact Nat.log2_self_le hn

theorem f32Mul_finite (a b : Int) (h : f32RoundMag (a * b).natAbs < f32Overflow) :
    f32Mul a b =
      .fin (if a * b < 0 then -(f32RoundMag (a * b).natAbs : Int) else (f32RoundMag (a * b).natAbs : Int)) := by
  unfold f32Mul
  simp only [if_neg (Nat.not_le.mpr h), decide_eq_true_eq]

theorem f32Mul_overflow (a b : Int) (h : f32Overflow ≤ f32RoundMag (a * b).natAbs) :
    f32Mul a b = .inf (decide (a * b < 0)) := by
  unfold f32Mul
  simp only [if_pos h]

/-- Settles O42: the witnesses are the rounded quotient and the bits the significand drops. -/
theorem productsRoundToNearestEven : Obligations.ProductsRoundToNearestEven := by
  unfold Obligations.ProductsRoundToNearestEven
  intro a b
  have hround := divNearestEven_spec (a * b).natAbs (2 ^ (149 + f32Drop (a * b).natAbs)) (Nat.two_pow_pos _)
  obtain ⟨hbelow, habove, htie⟩ := hround
  exact ⟨divNearestEven (a * b).natAbs (2 ^ (149 + f32Drop (a * b).natAbs)), f32Drop (a * b).natAbs,
    lt_f32Drop _, f32Drop_le _, hbelow, habove, htie, f32Mul_finite a b, f32Mul_overflow a b⟩

/-- A magnitude of at most 24 significant bits is not rounded. -/
theorem f32RoundMag_exact (m e : Nat) (hm : m < 2 ^ 24) : f32RoundMag (m * 2 ^ (149 + e)) = m * 2 ^ e := by
  have hd : f32Drop (m * 2 ^ (149 + e)) ≤ e := by
    have hlt : m * 2 ^ (149 + e) < 2 ^ (24 + (149 + e)) := by
      rw [Nat.pow_add 2 24]
      exact Nat.mul_lt_mul_of_pos_right hm (Nat.two_pow_pos _)
    rcases Nat.eq_zero_or_pos (m * 2 ^ (149 + e)) with h0 | hpos
    · rw [h0, f32Drop_zero]
      exact Nat.zero_le e
    · have := (Nat.log2_lt hpos.ne').mpr hlt
      unfold f32Drop
      omega
  unfold f32RoundMag
  generalize f32Drop (m * 2 ^ (149 + e)) = d at hd
  obtain ⟨c, rfl⟩ := Nat.exists_eq_add_of_le hd
  rw [show m * 2 ^ (149 + (d + c)) = m * 2 ^ c * 2 ^ (149 + d) by ring,
    divNearestEven_exact _ _ (Nat.two_pow_pos _)]
  ring

/-- Settles O43: the magnitude is not rounded, and it lies below the overflow. -/
theorem exactProductsAreNotRounded : Obligations.ExactProductsAreNotRounded := by
  unfold Obligations.ExactProductsAreNotRounded
  intro a b m e hn hm he
  have hmag : f32RoundMag (a * b).natAbs = m * 2 ^ e := by rw [hn, f32RoundMag_exact m e hm]
  have hfin : m * 2 ^ e < f32Overflow := by
    rw [f32Overflow_eq]
    exact Nat.mul_lt_mul_of_lt_of_le hm (Nat.pow_le_pow_right (by decide) he) (Nat.two_pow_pos _)
  rw [f32Mul_finite a b (hmag ▸ hfin), hmag]

/-! ### The external blend in integers (R173 to R180) -/

/-- A positive factor keeps the sign of a product. -/
theorem mul_neg_iff_of_pos (n u : Int) (hu : 0 < u) : n * u < 0 ↔ n < 0 := by
  simpa using mul_lt_mul_iff_left₀ (b := n) (c := 0) hu

/-- An exact signed product of at most 24 significant bits is returned with its sign. -/
theorem f32Mul_exact (a b n : Int) (e : Nat) (h : a * b = n * 2 ^ (149 + e)) (hn : n.natAbs < 2 ^ 24) (he : e ≤ 253) :
    f32Mul a b = .fin (n * 2 ^ e) := by
  have hmag : (a * b).natAbs = n.natAbs * 2 ^ (149 + e) := by
    rw [h, Int.natAbs_mul, Int.natAbs_pow]
    rfl
  have hsign : a * b < 0 ↔ n < 0 := by
    rw [h]
    exact mul_neg_iff_of_pos n _ (by positivity)
  rw [exactProductsAreNotRounded a b n.natAbs e hmag hn he, F32.fin.injEq]
  simp only [hsign]
  push_cast
  split
  next hneg => rw [abs_of_neg hneg, neg_mul, neg_neg]
  next hnonneg => rw [abs_of_nonneg (Int.not_lt.mp hnonneg)]

/-- One is a positive number of units. -/
theorem f32One_pos : (0 : Int) < f32One := by simp [f32One]

theorem f32OfInt_pos (n : Int) : 0 < f32OfInt n ↔ 0 < n := mul_pos_iff_of_pos_right f32One_pos

theorem f32OfInt_neg (n : Int) : f32OfInt n < 0 ↔ n < 0 := mul_neg_iff_of_pos n _ f32One_pos

theorem natAbs_f32OfInt_lt (m n : Int) : (f32OfInt m).natAbs < (f32OfInt n).natAbs ↔ |m| < |n| := by
  simp only [f32OfInt, Int.natAbs_mul, Int.natAbs_natCast, Int.abs_eq_natAbs, Int.ofNat_lt]
  exact Nat.mul_lt_mul_right (by exact_mod_cast f32One_pos)

/-- The signal da of two integer signals is the integer one of smaller magnitude (R174). -/
theorem smallerSignal_ofInt (d1 d2 : Int) :
    smallerSignal d1 (.fin (f32OfInt d2)) = f32OfInt (if |d1| < |d2| then d1 else d2) := by
  simp only [smallerSignal, natAbs_f32OfInt_lt]
  split <;> rfl

/-- Integer signals disagree when their signs are opposite (R175). -/
theorem signsDisagree_ofInt (d1 d2 : Int) :
    signsDisagree d1 (.fin (f32OfInt d2)) = decide ((d1 < 0 ∧ 0 < d2) ∨ (0 < d1 ∧ d2 < 0)) := by
  simp only [signsDisagree, f32OfInt_pos, f32OfInt_neg]

/-- The reset value of SCL is 0.25 (R29, R97). -/
theorem f32OfWord_quarter : f32OfWord 0x3E800000 = 2 ^ 147 := by decide +kernel

/-- An integer below 2^24 times 0.25 is exact (R13). -/
theorem f32Mul_quarter (n : Int) (h : n.natAbs < 2 ^ 24) :
    f32Mul (f32OfInt n) (f32OfWord 0x3E800000) = .fin (n * 2 ^ 147) := by
  refine f32Mul_exact _ _ n 147 ?_ h (by decide)
  rw [f32OfWord_quarter, f32OfInt, f32One, pow_add, mul_assoc]
  norm_cast

theorem f32Trunc_ofInt (n : Int) : f32Trunc (f32OfInt n) = n :=
  Int.mul_tdiv_cancel n f32One_pos.ne'

/-- Truncating a quarter is dividing by 4 toward zero (R177). -/
theorem f32Trunc_quarter (n : Int) : f32Trunc (n * 2 ^ 147) = n.tdiv 4 := by
  rw [f32Trunc, show (f32One : Int) = 4 * 2 ^ 147 by norm_num [f32One]]
  exact Int.mul_tdiv_mul_of_pos_left n 4 (by positivity)

/-- The blend of two integer signals with scl = 0.25: the smaller one, quartered toward zero when they disagree, is what
is added to the base (R174 to R178). -/
theorem reconstruct_addend_quarter (p : Blend) (base d1 d2 lo hi : Int) (hscl : p.scl = f32OfWord 0x3E800000)
    (h1 : d1.natAbs < 2 ^ 24) (h2 : d2.natAbs < 2 ^ 24) :
    let da := if |d1| < |d2| then d1 else d2
    reconstruct base (p.addend d1 (.fin (f32OfInt d2))) lo hi =
      clamp (base + if (d1 < 0 ∧ 0 < d2) ∨ (0 < d1 ∧ d2 < 0) then da.tdiv 4 else da) lo hi := by
  intro da
  have hda : da.natAbs < 2 ^ 24 := by
    dsimp only [da]
    split <;> assumption
  rw [Blend.addend, signsDisagree_ofInt, smallerSignal_ofInt, hscl]
  simp only [decide_eq_true_eq]
  split
  · rw [f32Mul_quarter da hda, reconstruct, f32Trunc_quarter]
  · rw [reconstruct, f32Trunc_ofInt]

/-- Settles O41: both signals are integers below 2^24 in magnitude, so the product with 0.25 is exact. -/
theorem externalBlendInIntegers : Obligations.ExternalBlendInIntegers := by
  unfold Obligations.ExternalBlendInIntegers
  intro p s b r hclip hscl hs0 hs hb0 hb hr0 hr
  have hdis : ((s - b < 0 ∧ 0 < s - r) ∨ (0 < s - b ∧ s - r < 0)) ↔ ((s < b ∧ r < s) ∨ (b < s ∧ s < r)) := by omega
  have hblend := reconstruct_addend_quarter p r (s - b) (s - r) (max (s - p.radius) 0) (min (s + p.radius) p.peak)
    hscl (by omega) (by omega)
  simp only [hdis] at hblend
  simpa only [Blend.pixel, Blend.signal, hclip, if_true, clamp] using hblend

end Sys2Proof.Machine

/-! PROOFS of the state family: the invariant of every run, steps of the host and of the core, the register port, the
reset input, the end of a command, the configuration fields, and the lookup table. -/

namespace Sys2Proof.Machine

/-! ### The state after reset -/

theorem scratchZero_shaped (b : Build) : (Scratch.zero b).shaped b := by
  simp [Scratch.shaped, Scratch.zero]

/-- Settles O57: memory lists nothing, STATUS is clear, the core is idle and RST is released. -/
theorem resetMeetsTheInvariant : Obligations.ResetMeetsTheInvariant := by
  unfold Obligations.ResetMeetsTheInvariant
  intro b
  exact .of_idle (resetOf_mem_wf b) rfl rfl (scratchZero_shaped b) (.of_released rfl)

/-! ### The invariant along START and the end of a command -/

/-- What an action must lead to for its step to keep the invariant: a state that meets it, and where a command runs,
RST is released and CMD holds that command. -/
def Action.Sound : Action → Prop
  | .settle s => s.Inv
  | .stop _ => True
  | .run i s => s.Inv ∧ s.rst = false ∧ decode s.regs.cmd = .ok i

/-- Every error entry and every end of a command is such an update (R232, R240, R241). -/
theorem setStatus_inv_of_idle {s : State} {st : Status} (hmem : Mem.wf s.mem) (hsc : s.scratch.shaped s.build)
    (hrst : s.rst = false) (hidle : st.busy = false) : (s.setStatus st).Inv :=
  .of_idle hmem rfl hidle hsc (.of_released hrst)

/-- A STATUS update out of reset keeps the invariant when it sets none of the flags that are 0 while a command runs. -/
theorem setStatus_inv {s : State} {st : Status} (h : s.Inv) (hrst : s.rst = false)
    (hbusy : st.busy = s.status.busy) (heff : st.effVw = s.status.effVw)
    (hdone : s.status.done = false → st.done = false) (herr : s.status.err = false → st.err = false)
    (hcode : s.status.errcode = 0 → st.errcode = 0) : (s.setStatus st).Inv := by
  refine ⟨h.memory, rfl, fun hb => ?_, h.scratch, .of_released hrst⟩
  obtain ⟨hsnap, hd, he, hc, hea, i, hi, hdec, hval, hvw⟩ := h.running (hbusy ▸ hb)
  exact ⟨hsnap, hdone hd, herr he, hcode hc, hea, i, hi, hdec, hval, heff.trans hvw⟩

theorem dropWrite_inv {s : State} (h : s.Inv) (hrst : s.rst = false) : s.dropWrite.Inv :=
  setStatus_inv h hrst rfl rfl id id id

theorem setIrqEn_inv {s : State} (h : s.Inv) (hrst : s.rst = false) (en : Bool) : (s.setIrqEn en).Inv :=
  ⟨h.memory, rfl, h.running, h.scratch, .of_released hrst⟩

theorem startIllegal_inv {s : State} (h : s.Inv) (hrst : s.rst = false) : (startIllegal s).Inv :=
  setStatus_inv_of_idle h.memory h.scratch hrst rfl

theorem startNop_inv {s : State} (h : s.Inv) (hrst : s.rst = false) : (startNop s).Inv :=
  setStatus_inv_of_idle h.memory h.scratch hrst rfl

/-- A START whose checks pass makes what the invariant says of a running command true (R231, R232). -/
theorem startCommand_inv {op : Instr} {s : State} (h : s.Inv) (hrst : s.rst = false) (hop : op ≠ .nop)
    (hdec : decode s.regs.cmd = .ok op) : (startCommand op s).Inv := by
  cases hv : validate s.build op s.regs with
  | none =>
    rw [startCommand_valid op s hv]
    exact ⟨h.memory, rfl, fun _ => ⟨rfl, rfl, rfl, rfl, rfl, op, hop, hdec, hv, rfl⟩, h.scratch, .of_released hrst⟩
  | some c =>
    rw [startCommand_invalid op s c hv]
    exact setStatus_inv_of_idle h.memory h.scratch hrst rfl

/-- Every way a validated command ends leaves the core idle, over canonical memory. -/
theorem finishCommand_inv {op : Instr} {k : Kernel} {s t : State} (hmem : Mem.wf s.mem) (hrst : s.rst = false)
    (hop : op ≠ .nop) (hval : validate s.build op s.snap = none) (h : finishCommand op k s = .next t) : t.Inv := by
  have hfree := wf_freeDest s.snap s.draws s.mem hmem
  have hscratch := freeScratch_shaped s.build s.draws
  obtain ⟨-, hf⟩ | ⟨-, ⟨-, hf⟩ | ⟨-, ⟨e, es, -, hf⟩ | ⟨-, ⟨-, hf⟩ | ⟨-, hf⟩⟩⟩⟩ := finishCommand_cases op k s <;>
    rw [hf] at h <;> cases h
  · exact setStatus_inv_of_idle hfree hscratch hrst rfl
  · exact setStatus_inv_of_idle hfree hscratch hrst rfl
  · exact setStatus_inv_of_idle hfree hscratch hrst rfl
  · have hgeom := ((validate_none_iff _ _ _).mp hval).2.1
    exact setStatus_inv_of_idle (wf_destWrites _ _ _ hmem (destBytes_lt op s.snap hop hgeom)) hscratch hrst rfl

/-- While BUSY the command in CMD is the running one, which is not NOP and passed every check (R231, R281). -/
theorem State.Inv.running_of_decode {s : State} (h : s.Inv) (hb : s.status.busy = true) {op : Instr}
    (hdec : decode s.regs.cmd = .ok op) : op ≠ .nop ∧ validate s.build op s.snap = none := by
  obtain ⟨hsnap, -, -, -, -, i, hi, hi', hval, -⟩ := h.running hb
  rw [hsnap, hdec] at hi'
  cases hi'
  exact ⟨hi, hval⟩

theorem exec_inv {op : Instr} {s t : State} (h : s.Inv) (hrst : s.rst = false) (hdec : decode s.regs.cmd = .ok op)
    (hx : exec op s = .next t) : t.Inv := by
  cases hb : s.status.busy with
  | false =>
    by_cases hop : op = .nop
    · subst hop
      simp only [exec, execNop, hb] at hx
      cases hx
      exact startNop_inv h hrst
    · rw [exec_idle op s hop hb] at hx
      cases hx
      exact startCommand_inv h hrst hop hdec
  | true =>
    obtain ⟨hop, hval⟩ := h.running_of_decode hb hdec
    obtain ⟨k, hk⟩ := exec_busy op s hop hb
    exact finishCommand_inv h.memory hrst hop hval (hk ▸ hx)

/-! ### The invariant along the host's and the core's moves -/

theorem writeSetup_inv {s : State} (h : s.Inv) (hrst : s.rst = false) (R : CmdRegs) : (writeSetup R s).Inv := by
  cases hb : s.status.busy with
  | false =>
    rw [writeSetup_idle R s hb]
    exact .of_idle h.memory h.interrupt hb h.scratch (.of_released hrst)
  | true =>
    rw [writeSetup_busy R s hb]
    exact dropWrite_inv h hrst

theorem portStart_sound {s : State} (h : s.Inv) (hrst : s.rst = false) : (portStart s).Sound := by
  unfold portStart
  split
  · exact dropWrite_inv h hrst
  · cases hdec : decode s.regs.cmd with
    | ok i => exact ⟨h, hrst, hdec⟩
    | error e => exact startIllegal_inv h hrst

theorem writeCtrl_sound {s : State} (h : s.Inv) (hrst : s.rst = false) (v : Word) : (writeCtrl v s).Sound := by
  have hen := setIrqEn_inv h hrst v[2]
  unfold writeCtrl
  dsimp only
  split
  · exact resetCore_inv h
  · split
    · exact portStart_sound hen hrst
    · exact hen

/-- A write of STATUS only clears flags (R25). -/
theorem w1c_inv {s : State} (h : s.Inv) (hrst : s.rst = false) (v : Word) :
    (s.setStatus (s.status.w1c v)).Inv := by
  refine setStatus_inv h hrst rfl rfl ?_ ?_ ?_ <;> intro h0 <;> simp [Status.w1c, h0]

theorem regWrite_sound {s : State} (h : s.Inv) (hrst : s.rst = false) (r : Reg) (v : Word) :
    (regWrite r v s).Sound := by
  cases r with
  | id | caps | maxdim | erraddr | reserved => exact h
  | ctrl => exact writeCtrl_sound h hrst v
  | status => exact w1c_inv h hrst v
  | cmd | cfg | amnt | sstr | scl | desc => exact writeSetup_inv h hrst _

theorem portWrite_sound {s : State} (h : s.Inv) (off : BitVec 12) (size : Nat) (v : Word) :
    (portWrite off size v s).Sound := by
  cases hrst : s.rst with
  | true => rwa [portWrite_held off size v s hrst]
  | false =>
    simp only [portWrite, hrst, Bool.false_eq_true, if_false]
    split
    · exact regWrite_sound h hrst _ v
    · exact h

/-- The invariant says nothing of the breach flag and asks of memory its canonical form only. -/
theorem hostWriteByte_inv {s : State} (h : s.Inv) (a : Nat) (v : Byte) (ha : a < memLimit) :
    (hostWriteByte a v s).Inv := by
  cases hw : (registerWindow s.build).has a with
  | true => rwa [hostWriteByte_window a v s hw]
  | false =>
    rw [hostWriteByte_memory a v s hw]
    exact ⟨Mem.wf_write _ _ _ h.memory ha, h.interrupt, h.running, h.scratch, h.held⟩

/-- New values of the model's own fields keep the invariant (log entries 5, 7, 8 and 14). -/
theorem State.Inv.ownFields {s : State} (h : s.Inv) (breached : Bool) (host : List HostOp) (turns : List Agent)
    (readData : Word) (draws : Nat) :
    State.Inv { s with breached := breached, host := host, turns := turns, readData := readData, draws := draws } :=
  h.congr rfl rfl rfl rfl rfl rfl rfl rfl rfl rfl

theorem hostOp_sound {s : State} (h : s.Inv) (op : HostOp) : (hostOp op s).Sound := by
  cases op with
  | regWrite off size v => exact portWrite_sound h off size v
  | regRead off size => exact h.ownFields _ _ _ _ _
  | poll off mask val =>
    simp only [hostOp]
    split <;> exact h.ownFields _ _ _ _ _
  | memW8 a v => exact hostWriteByte_inv h _ _ a.isLt
  | memW16 a v =>
    simp only [hostOp]
    split
    · trivial
    · exact hostWriteByte_inv (hostWriteByte_inv h _ _ a.isLt) _ _ (by omega)
  | memR8 a => exact h.ownFields _ _ _ _ _
  | memR16 a =>
    simp only [hostOp]
    split
    · trivial
    · exact h.ownFields _ _ _ _ _
  | rst level => exact driveReset_inv h level
  | peerRun dst inputs => exact h.ownFields _ _ _ _ _

theorem hostMove_sound {s : State} (h : s.Inv) : (hostMove s).Sound := by
  unfold hostMove
  cases s.host with
  | nil => exact h
  | cons op rest => exact hostOp_sound (s := { s with host := rest }) (h.ownFields _ _ _ _ _) op

theorem coreMove_sound {s : State} (h : s.Inv) : (coreMove s).Sound := by
  cases hb : s.status.busy with
  | false => simpa [coreMove, hb, Action.Sound] using h
  | true =>
    obtain ⟨hsnap, -, -, -, -, i, -, hdec, -⟩ := h.running hb
    simp only [coreMove, hb, if_true, hdec]
    exact ⟨h, h.released_of_busy hb, hsnap ▸ hdec⟩

theorem nextAction_sound {s : State} (h : s.Inv) : (nextAction s).Sound := by
  have h1 : State.Inv { s with turns := s.turns.tail } := h.ownFields _ _ _ _ _
  unfold nextAction
  cases mover s with
  | host => exact hostMove_sound h1
  | core => exact coreMove_sound h1

/-- Settles O56: the action of a step leads from the invariant to the invariant, and so does the command it runs. -/
theorem everyStepKeepsTheInvariant : Obligations.EveryStepKeepsTheInvariant := by
  unfold Obligations.EveryStepKeepsTheInvariant
  intro s t h hstep
  have hs := nextAction_sound h
  rcases step_eq_next hstep with ha | ⟨i, u, ha, hx⟩
  · rwa [ha] at hs
  · rw [ha] at hs
    obtain ⟨hinv, hrst, hdec⟩ := hs
    exact exec_inv hinv hrst hdec hx

/-! ### Command words -/

/-- Settles O3: with [31:4] clear the decoder's choice rests on OP alone, and its commands are those of 0x0 to 0x6. -/
theorem wellFormedWordsAreTheCommands : Obligations.WellFormedWordsAreTheCommands := by
  unfold Obligations.WellFormedWordsAreTheCommands
  intro w
  by_cases hr : w.extractLsb' 4 28 = 0#28
  · simp only [wellFormedWord, reservedClear, opAssigned, decode, hr]
    generalize (w.extractLsb' 0 4).toNat = op
    match op with
    | 0 | 1 | 2 | 3 | 4 | 5 | 6 => simp
    | n + 7 => simp
  · simp only [wellFormedWord, reservedClear, decode]
    simp [hr]

/-! ### Steps -/

/-- On the host's turn the action is its next operation, with operation and turn taken off (R101). -/
theorem nextAction_host {s : State} {op : HostOp} {rest : List HostOp} (hm : mover s = .host)
    (hh : s.host = op :: rest) : nextAction s = hostOp op { s with turns := s.turns.tail, host := rest } := by
  simp [nextAction, hm, hostMove, hh]

/-- On the core's turn the running command goes on, with the turn taken off (R75). -/
theorem nextAction_core {s : State} {i : Instr} (hm : mover s = .core) (hb : s.status.busy = true)
    (hdec : decode s.snap.cmd = .ok i) : nextAction s = .run i { s with turns := s.turns.tail } := by
  simp [nextAction, hm, coreMove, hb, hdec]

/-- A CTRL write with START and without SRST sets IRQ_EN and then comes to the START (R24). -/
theorem nextAction_start {s : State} {v : Word} {rest : List HostOp} (hrst : s.rst = false) (hm : mover s = .host)
    (hh : s.host = .regWrite 0x00C 4 v :: rest) (hstart : v[0] = true) (hsrst : v[1] = false) :
    nextAction s = portStart ({ s with turns := s.turns.tail, host := rest }.setIrqEn v[2]) := by
  rw [nextAction_host hm hh]
  refine (portWrite_accepted _ v _ ?_ ?_).trans ?_
  · exact hrst
  · rfl
  · simp [regAt, regWrite, writeCtrl, hstart, hsrst]

theorem portStart_busy {s : State} (h : s.status.busy = true) : portStart s = .settle s.dropWrite := by
  simp [portStart, h]

theorem portStart_idle {s : State} {i : Instr} (h : s.status.busy = false) (hdec : decode s.regs.cmd = .ok i) :
    portStart s = .run i s := by
  simp [portStart, h, hdec]

theorem step_of_run {s u : State} {i : Instr} (h : nextAction s = .run i u) : step s = exec i u := by
  simp [step, h]

theorem step_of_settle {s t : State} (h : nextAction s = .settle t) : step s = .next t := by
  simp [step, h]

/-- Settles O6: the host's operation is a START, which on the idle core runs the command in CMD. -/
theorem startStepRunsTheDecodedCommand : Obligations.StartStepRunsTheDecodedCommand := by
  unfold Obligations.StartStepRunsTheDecodedCommand
  intro s v rest i hrst hb hm hh hstart hsrst hdec
  exact step_of_run ((nextAction_start hrst hm hh hstart hsrst).trans (portStart_idle hb hdec))

/-- Settles O7: on its turn a BUSY core runs the command its snapshot holds. -/
theorem coreStepEndsTheSnapshotCommand : Obligations.CoreStepEndsTheSnapshotCommand := by
  unfold Obligations.CoreStepEndsTheSnapshotCommand
  intro s i hb hm hdec
  exact step_of_run (nextAction_core hm hb hdec)

/-- A START written with IRQ_EN kept has bit 0 set, bit 1 clear and IRQ_EN in bit 2 (R24, R102). -/
theorem startWord_bits (en : Bool) :
    (startWord en)[0] = true ∧ (startWord en)[1] = false ∧ (startWord en)[2] = en := by
  cases en <;> decide

theorem decode_encode (i : Instr) : decode (encode i) = .ok i := by cases i <;> rfl

/-- Settles O8: the placed state meets what `StartStepRunsTheDecodedCommand` asks of one. -/
theorem placedCommandRunsNext : Obligations.PlacedCommandRunsNext := by
  unfold Obligations.PlacedCommandRunsNext
  intro s i
  obtain ⟨hstart, hsrst, hen⟩ := startWord_bits s.irqEn
  have hword : s.withFetchWord 32 (encode i).toNat = placeCommand (encode i) s := by
    rw [State.withFetchWord, Nat.mod_eq_of_lt (encode i).isLt, BitVec.ofNat_toNat, BitVec.setWidth_eq]
  rw [hword, startStepRunsTheDecodedCommand (placeCommand (encode i) s) (startWord s.irqEn) s.host i rfl rfl rfl rfl
    hstart hsrst (decode_encode i), hen]
  rfl

/-- Settles O47: the START is dropped after the CTRL write has set IRQ_EN. -/
theorem startWhileBusyIsDropped : Obligations.StartWhileBusyIsDropped := by
  unfold Obligations.StartWhileBusyIsDropped
  intro s v rest hrst hb hm hh hstart hsrst
  exact ⟨_, step_of_settle ((nextAction_start hrst hm hh hstart hsrst).trans (portStart_busy hb)),
    rfl, rfl, rfl, rfl, rfl, rfl, rfl⟩

/-! ### The register port -/

/-- A 32-bit read at a multiple of 4 reads the register the offset names (R33). -/
theorem portRead_aligned (off : BitVec 12) (s : State) (h : off.toNat % 4 = 0) :
    portRead off 4 s = regRead s (regAt off.toNat) := by
  simp [portRead, portAccepts, h]

/-- An access of another width or alignment reads 0 (R33). -/
theorem portRead_rejected (off : BitVec 12) (size : Nat) (s : State) (h : size ≠ 4 ∨ off.toNat % 4 ≠ 0) :
    portRead off size s = 0 := by
  have hr : portAccepts off size = false := by simpa [portAccepts, imp_iff_not_or] using h
  simp [portRead, hr]

/-- An access of another width or alignment writes nothing (R33). -/
theorem portWrite_rejected (off : BitVec 12) (size : Nat) (v : Word) (s : State) (h : size ≠ 4 ∨ off.toNat % 4 ≠ 0) :
    portWrite off size v s = .settle s := by
  have hr : portAccepts off size = false := by simpa [portAccepts, imp_iff_not_or] using h
  simp [portWrite, hr]

/-- The descriptor registers lie from 0x040 on, four to a slot (R30). -/
theorem regAt_desc (off : Nat) (h : 0x040 ≤ off ∧ off < 0x080) :
    regAt off = .desc (slotOfNum ((off - 0x040) / 16)) (fieldOfNum (off % 16 / 4)) := if_pos h

/-- The reserved offsets (R32). -/
theorem regAt_reserved (off : Nat) (h : 0x028 < off ∧ off < 0x040 ∨ 0x080 ≤ off) : regAt off = .reserved := by
  have hd : ¬(0x040 ≤ off ∧ off < 0x080) := by omega
  unfold regAt
  rw [if_neg hd]
  split
  case h_12 => rfl
  all_goals omega

/-- Settles O48: a reserved offset names the reserved register, and a register read is a step of the host. -/
theorem accessesWithoutEffect : Obligations.AccessesWithoutEffect := by
  unfold Obligations.AccessesWithoutEffect
  intro s off size v
  refine ⟨fun hsize ha ho => ?_, fun h => ⟨portRead_rejected off size s h, portWrite_rejected off size v s h⟩,
    fun rest hm hh => step_of_settle (nextAction_host hm hh)⟩
  have hreg : regAt off.toNat = .reserved := regAt_reserved _ (by omega)
  subst hsize
  refine ⟨by rw [portRead_aligned off s ha, hreg]; rfl, ?_⟩
  cases hrst : s.rst with
  | true => exact portWrite_held off 4 v s hrst
  | false => rw [portWrite_accepted off v s hrst ha, hreg]; rfl

/-! ### What registers read -/

/-- Words laid side by side are a number in mixed radix. -/
theorem toNat_append_add {m n : Nat} (x : BitVec m) (y : BitVec n) : (x ++ y).toNat = x.toNat * 2 ^ n + y.toNat := by
  rw [BitVec.toNat_append, ← Nat.shiftLeft_add_eq_or_of_lt y.isLt, Nat.shiftLeft_eq]

/-- The fields of STATUS at their bits (R25). -/
theorem status_word_toNat (st : Status) :
    st.word.toNat = st.busy.toNat + 2 * st.done.toNat + 4 * st.err.toNat + 8 * st.wdrop.toNat
      + 16 * st.errcode.toNat + 256 * st.effVw.toNat := by
  simp only [Status.word, toNat_append_add, BitVec.toNat_ofBool, BitVec.toNat_ofNat]
  omega

theorem ctrlWord_toNat (en : Bool) : (ctrlWord en).toNat = 4 * en.toNat := by cases en <;> rfl

/-- Register f of descriptor k lies at 0x040 + 16k + 4f (R30). -/
theorem portRead_desc (s : State) (k f : Nat) (hk : k < 4) (hf : f < 4) :
    portRead (BitVec.ofNat 12 (0x040 + 16 * k + 4 * f)) 4 s = (s.regs.desc (slotOfNum k)).get (fieldOfNum f) := by
  have ho : (BitVec.ofNat 12 (0x040 + 16 * k + 4 * f)).toNat = 0x040 + 16 * k + 4 * f := by
    rw [BitVec.toNat_ofNat, Nat.mod_eq_of_lt (by omega)]
  rw [portRead_aligned _ s (by omega), ho, regAt_desc _ (by omega),
    show (0x040 + 16 * k + 4 * f - 0x040) / 16 = k by omega, show (0x040 + 16 * k + 4 * f) % 16 / 4 = f by omega]
  rfl

/-- The descriptor slots by number (R30). -/
theorem desc_slotOfNum (S : CmdRegs) (k : Nat) (d : Desc) (h : [S.d0, S.d1, S.d2, S.d3][k]? = some d) :
    k < 4 ∧ S.desc (slotOfNum k) = d := by
  match k with
  | 0 | 1 | 2 | 3 => exact ⟨by decide, Option.some.inj h⟩
  | k + 4 => simp at h

/-- The registers of a descriptor by number (R30). -/
theorem get_fieldOfNum (d : Desc) (f : Nat) (v : Word) (h : [d.base, d.pitch, d.width, d.height][f]? = some v) :
    f < 4 ∧ d.get (fieldOfNum f) = v := by
  match f with
  | 0 | 1 | 2 | 3 => exact ⟨by decide, Option.some.inj h⟩
  | f + 4 => simp at h

/-- Settles O44, register by register. -/
theorem registersReadAsMapped : Obligations.RegistersReadAsMapped := by
  unfold Obligations.RegistersReadAsMapped
  intro s
  refine ⟨rfl, ?_, ?_, ctrlWord_toNat s.irqEn, status_word_toNat s.status, rfl, rfl, rfl, rfl, rfl, rfl,
    fun k f d v hd hv => ?_⟩
  · refine (toNat_append_add 0#28 s.build.vwSupported).trans ?_
    simp
  · exact toNat_append_add s.build.maxH s.build.maxW
  · obtain ⟨hk, rfl⟩ := desc_slotOfNum s.regs k d hd
    obtain ⟨hf, rfl⟩ := get_fieldOfNum _ f v hv
    exact portRead_desc s k f hk hf

/-- From 0x028 on an offset names ERRADDR, a descriptor register or a reserved one (10_state.md, section 2). -/
theorem regAt_from_erraddr (off : Nat) (h : 0x028 ≤ off) :
    regAt off = .erraddr ∨ (∃ k f, regAt off = .desc k f) ∨ regAt off = .reserved := by
  by_cases hd : 0x040 ≤ off ∧ off < 0x080
  · exact .inr (.inl ⟨_, _, regAt_desc off hd⟩)
  · rcases Nat.eq_or_lt_of_le h with rfl | hlt
    · exact .inl rfl
    · exact .inr (.inr (regAt_reserved off (by omega)))

/-- Every register of every descriptor is 0 at reset (R30). -/
theorem reset_desc_get (k : Slot) (f : DescField) : (CmdRegs.reset.desc k).get f = 0 := by
  cases k <;> cases f <;> rfl

theorem reset_status_word : Status.reset.word = 0 := by decide

/-- Settles O51: the registers below 0x028 by the register map, those from it on by what an offset there can name. -/
theorem resetRegisterValues : Obligations.ResetRegisterValues := by
  unfold Obligations.ResetRegisterValues
  intro b
  obtain ⟨-, hcaps, hmaxdim, -⟩ := registersReadAsMapped (State.resetOf b)
  refine ⟨rfl, hcaps, hmaxdim, rfl, reset_status_word, rfl, rfl, rfl, rfl, rfl, fun off ho => ?_, rfl⟩
  by_cases ha : off.toNat % 4 = 0
  · rw [portRead_aligned off _ ha]
    rcases regAt_from_erraddr off.toNat ho with h | ⟨k, f, h⟩ | h <;> rw [h]
    · rfl
    · exact reset_desc_get k f
    · rfl
  · exact portRead_rejected off 4 _ (.inr ha)

/-! ### Setup registers -/

/-- The registers a START copies, which are the ones a host sets up (R26 to R30). -/
def Reg.isSetup : Reg → Prop
  | .cmd | .cfg | .amnt | .sstr | .scl | .desc _ _ => True
  | _ => False

/-- One setup register given a new value; every other register has none to take. -/
def CmdRegs.put (S : CmdRegs) (r : Reg) (v : Word) : CmdRegs :=
  match r with
  | .cmd => { S with cmd := v }
  | .cfg => { S with cfg := v }
  | .amnt => { S with amnt := v }
  | .sstr => { S with sstr := v }
  | .scl => { S with scl := v }
  | .desc k f => S.setDesc k ((S.desc k).set f v)
  | _ => S

/-- A write of a setup register on the idle core stores the word (R26 to R30). -/
theorem regWrite_setup {r : Reg} {s : State} (hr : r.isSetup) (hb : s.status.busy = false) (v : Word) :
    regWrite r v s = .settle { s with regs := s.regs.put r v } := by
  cases r with
  | cmd | cfg | amnt | sstr | scl | desc => exact congrArg Action.settle (writeSetup_idle _ s hb)
  | id | caps | maxdim | ctrl | status | erraddr | reserved => exact hr.elim

theorem regRead_put_same (s : State) {r : Reg} (hr : r.isSetup) (v : Word) :
    regRead { s with regs := s.regs.put r v } r = v := by
  cases r with
  | cmd | cfg | amnt | sstr | scl => rfl
  | desc k f =>
    rw [regRead, CmdRegs.put, CmdRegs.desc_setDesc_same, Desc.get_set_same]
  | id | caps | maxdim | ctrl | status | erraddr | reserved => exact hr.elim

/-- A descriptor register reads as before after a write of another setup register. -/
theorem get_desc_put_other (S : CmdRegs) (r : Reg) (v : Word) (k : Slot) (f : DescField) (h : .desc k f ≠ r) :
    ((S.put r v).desc k).get f = (S.desc k).get f := by
  cases r with
  | desc j g =>
    by_cases hk : k = j
    · subst hk
      have hf : f ≠ g := fun hf => h (hf ▸ rfl)
      rw [CmdRegs.put, CmdRegs.desc_setDesc_same, Desc.get_set_other _ _ _ _ hf]
    · rw [CmdRegs.put, CmdRegs.desc_setDesc_other _ _ _ _ hk]
  | _ => cases k <;> rfl

theorem regRead_put_other (s : State) (r q : Reg) (v : Word) (h : q ≠ r) :
    regRead { s with regs := s.regs.put r v } q = regRead s q := by
  cases q with
  | desc k f => exact get_desc_put_other s.regs r v k f h
  | cmd | cfg | amnt | sstr | scl =>
    cases r with
    | desc k f => cases k <;> rfl
    | _ => simp_all [regRead, CmdRegs.put]
  | _ => rfl

/-- The offsets of the setup registers (10_state.md, section 2). -/
theorem regAt_isSetup (off : Nat) (ha : off % 4 = 0)
    (h : 0x014 ≤ off ∧ off ≤ 0x024 ∨ 0x040 ≤ off ∧ off ≤ 0x07C) : (regAt off).isSetup := by
  rcases h with h | h
  · obtain rfl | rfl | rfl | rfl | rfl : off = 0x014 ∨ off = 0x018 ∨ off = 0x01C ∨ off = 0x020 ∨ off = 0x024 := by
      omega
    all_goals trivial
  · rw [regAt_desc off (by omega)]
    trivial

/-- Settles O45: the write stores the word in the register the offset names, which no other offset names. -/
theorem idleSetupWritesStoreTheWord : Obligations.IdleSetupWritesStoreTheWord := by
  unfold Obligations.IdleSetupWritesStoreTheWord
  intro s off v hrst hb ha ho
  have hr := regAt_isSetup off.toNat ha ho
  refine ⟨_, (portWrite_accepted off v s hrst ha).trans (regWrite_setup hr hb v), ?_, fun o hne => ?_, rfl, rfl⟩
  · rw [portRead_aligned off _ ha, regRead_put_same s hr v]
  · by_cases hao : o.toNat % 4 = 0
    · have hreg : regAt o.toNat ≠ regAt off.toNat := fun heq =>
        hne (regAt_injective o off hao ha heq fun hres => by rw [← heq, hres] at hr; exact hr)
      rw [portRead_aligned o _ hao, portRead_aligned o _ hao, regRead_put_other s _ _ v hreg]
    · rw [portRead_rejected o 4 _ (.inr hao), portRead_rejected o 4 _ (.inr hao)]

/-! ### The reset input -/

/-- Registers held in reset read as after power-on (R39, R270). -/
theorem regRead_held {s : State} (h : s.HeldInReset) (hrst : s.rst = true) (r : Reg) :
    regRead s r = regRead (State.resetOf s.build) r := by
  obtain ⟨hen, hst, hregs, herr⟩ := h hrst
  cases r with
  | id | caps | maxdim | reserved => rfl
  | ctrl => exact congrArg ctrlWord hen
  | status => exact congrArg Status.word hst
  | cmd | cfg | amnt | sstr | scl => simp only [regRead, hregs]; rfl
  | erraddr => exact herr
  | desc k f => simp only [regRead, hregs]; rfl

/-- An abandoned command changes destination cells only (R271). -/
theorem resetCore_onlyDestCells (s : State) : OnlyDestCells s.snap s.mem (resetCore s).mem := by
  intro a ha
  rw [resetCore_mem]
  split
  · exact read_freeDest_other _ _ _ a ha
  · rfl

/-- Settles O50: asserting RST is the reset, and what it holds after that is the invariant's last part. -/
theorem resetInputHoldsTheCore : Obligations.ResetInputHoldsTheCore := by
  unfold Obligations.ResetInputHoldsTheCore
  intro s
  refine ⟨⟨_, rfl, rfl, rfl, rfl, rfl, rfl, rfl, rfl, fun hb => ?_, resetCore_onlyDestCells s⟩, rfl,
    fun hinv hrst => ?_⟩
  · exact (resetCore_mem s).trans (by simp [hb])
  · obtain ⟨hen, hst, -, -⟩ := hinv.held hrst
    refine ⟨?_, ?_, fun off size v => portWrite_held off size v s hrst, fun off size => ?_⟩
    · rw [hinv.interrupt, hen, Bool.false_and]
    · rw [hst]
      rfl
    · simp only [portRead, regRead_held hinv.held hrst]

/-! ### The host's reads -/

/-- A byte outside the register window and outside a running command's destination cells is read as it stands (R76). -/
theorem hostReadByte_eq_read {s : State} {a : Nat} (h : (registerWindow s.build).has a = false ∧
    (s.status.busy = false ∨ s.snap.d3.inCells s.snap.unit a = false)) : hostReadByte a s = Mem.read s.mem a :=
  hostReadByte_readable a s h.1 (Bool.and_eq_false_iff.mpr h.2)

/-- A 16-bit host read below the last address returns two bytes, the lower address in [7:0] (R64, R101). -/
theorem hostOp_memR16 (s : State) (a : Word) (h : a.toNat + 2 ≤ 2 ^ 32) :
    hostOp (.memR16 a) s = .settle (s.returned (0#16 ++ hostReadByte (a.toNat + 1) s ++ hostReadByte a.toNat s)) := by
  have hin : ¬memLimit < a.toNat + 2 := by
    unfold memLimit
    omega
  simp only [hostOp, hin, if_false]

/-- Settles O55: a read spends one free value, and its bytes are those `hostReadByte` gives. -/
theorem hostReadsReturnTheByte : Obligations.HostReadsReturnTheByte := by
  unfold Obligations.HostReadsReturnTheByte
  intro s a returned readable
  refine ⟨⟨_, rfl, fun h => ?_, fun hw => ?_⟩, fun hl => ⟨_, hostOp_memR16 s a hl, fun h h' => ?_⟩⟩
  · rw [hostReadByte_eq_read h, toNat_append_add]
    simp
  · rw [hostReadByte_window a.toNat s hw]
    rfl
  · rw [hostReadByte_eq_read h, hostReadByte_eq_read h', toNat_append_add, toNat_append_add]
    simp only [BitVec.toNat_ofNat]
    omega

/-! ### The end of a command -/

/-- Settles O27: away from the window three ends are left, which write destination cells only; the one that touches
ERRADDR reports code 7. -/
theorem commandEndFrame : Obligations.CommandEndFrame := by
  unfold Obligations.CommandEndFrame
  intro op s t hop hb hw hx
  obtain ⟨k, hk⟩ := exec_busy op s hop hb
  rw [hk] at hx
  have hfree : OnlyDestCells s.snap s.mem (freeDest s.snap s.draws s.mem) := fun a ha =>
    read_freeDest_other _ _ _ a ha
  obtain ⟨-, hf⟩ | ⟨-, ⟨hwin, -⟩ | ⟨-, ⟨e, es, -, hf⟩ | ⟨-, ⟨-, hf⟩ | ⟨-, hf⟩⟩⟩⟩ := finishCommand_cases op k s
  · cases hf.symm.trans hx
  · rw [reachesWindow_of_away op s hw] at hwin
    cases hwin
  · cases hf.symm.trans hx
    exact ⟨rfl, rfl, rfl, rfl, rfl, rfl, rfl, rfl, rfl, rfl, fun hcode => absurd rfl hcode, hfree⟩
  · cases hf.symm.trans hx
    exact ⟨rfl, rfl, rfl, rfl, rfl, rfl, rfl, rfl, rfl, rfl, fun _ => rfl, hfree⟩
  · cases hf.symm.trans hx
    exact ⟨rfl, rfl, rfl, rfl, rfl, rfl, rfl, rfl, rfl, rfl, fun _ => rfl,
      fun a ha => read_destWrites_other _ _ _ a ha⟩

/-! ### The lookup table -/

/-- Clamping a correction to -255 .. 255 first is not seen through an envelope inside 0 .. 255 (R182). -/
theorem clamp_add_clamp (b c lo hi : Int) (hb : 0 ≤ b) (hb' : b ≤ 255) (hlo : 0 ≤ lo) (hhi : hi ≤ 255)
    (h : lo ≤ hi) : clamp (b + clamp c (-255) 255) lo hi = clamp (b + c) lo hi := by
  unfold clamp
  omega

/-- The correction of `lutEntry` is that of the pixel, clamped; within the envelope the clamp is not seen. -/
theorem clamp_add_lutEntry (p : Blend) (s b r : Nat) (lo hi : Int) (hclip : p.eclip = false) (hs : s ≤ 255)
    (hb : b ≤ 255) (hr : r ≤ 255) (hlo : 0 ≤ lo) (hhi : hi ≤ 255) (h : lo ≤ hi) :
    clamp ((b : Int) + p.lutEntry (s + 255 - b) (b + 255 - r)) lo hi =
      reconstruct b (p.addend ((s : Int) - b) (p.signal s b r)) lo hi := by
  have hsb : ((s + 255 - b : Nat) : Int) - 255 = s - b := by omega
  have hbr : ((b + 255 - r : Nat) : Int) - 255 = b - r := by omega
  have hsignal : f32Mul (f32OfInt ((b : Int) - r)) p.sstr = p.signal s b r := by simp [Blend.signal, hclip]
  unfold Blend.lutEntry
  simp only [hsb, hbr, hsignal]
  cases p.addend ((s : Int) - b) (p.signal s b r) with
  | fin k => exact clamp_add_clamp b _ lo hi (by omega) (by omega) hlo hhi h
  | inf neg =>
    cases neg with
    | true => simp only [reconstruct, clamp, if_true]; omega
    | false => simp only [reconstruct, clamp, Bool.false_eq_true, if_false]; omega

/-- Settles O37: at 8 bits the envelope lies inside 0 .. 255. -/
theorem lookupTableIsInvisible : Obligations.LookupTableIsInvisible := by
  unfold Obligations.LookupTableIsInvisible
  intro p s b r hclip hpeak hs hb hr
  rw [clamp_add_lutEntry p s b r _ _ hclip hs hb hr (by omega) (by omega) (by omega)]
  simp [Blend.pixel, hclip, hpeak]

/-! ### The configuration fields -/

/-- A field of a word as a number (R8). -/
theorem toNat_field (w : Word) (lo n : Nat) : (w.extractLsb' lo n).toNat = w.toNat / 2 ^ lo % 2 ^ n := by
  rw [BitVec.extractLsb'_toNat, Nat.shiftRight_eq_div_pow]

/-- A bit of a word as a number (R8). -/
theorem getElem_iff_toNat (w : Word) (i : Nat) (h : i < 32) : w[i] = true ↔ w.toNat / 2 ^ i % 2 = 1 := by
  rw [BitVec.getElem_eq_testBit_toNat, Nat.testBit_eq_decide_div_mod_eq, decide_eq_true_eq]

theorem CmdRegs.bits_eq (S : CmdRegs) : S.bits = S.cfg.toNat % 32 := by
  rw [CmdRegs.bits, toNat_field, Nat.pow_zero, Nat.div_one]
  rfl

/-- The radius by the number in AMNT (R96, R179). -/
theorem CmdRegs.radius_eq (S : CmdRegs) : S.radius = if S.amnt.toNat = 0 then S.peak else S.amnt.toNat := by
  have h : S.amnt = 0 ↔ S.amnt.toNat = 0 := BitVec.toNat_inj.symm
  simp only [CmdRegs.radius, h]

/-! ### The value of a binary32 word -/

/-- The magnitude of a word in units of 2^-149, by its exponent and fraction fields (R97). -/
def f32Magnitude (e f : Nat) : Nat := if e = 0 then f else (2 ^ 23 + f) * 2 ^ (e - 1)

/-- A word's value is its sign and its magnitude (R97). -/
theorem f32OfWord_eq (w : Word) :
    f32OfWord w = (-1) ^ (w.toNat / 2 ^ 31) * (f32Magnitude (w.toNat / 2 ^ 23 % 256) (w.toNat % 2 ^ 23) : Int) := by
  have he : (w.extractLsb' 23 8).toNat = w.toNat / 2 ^ 23 % 256 := toNat_field w 23 8
  have hf : (w.extractLsb' 0 23).toNat = w.toNat % 2 ^ 23 := by rw [toNat_field, Nat.pow_zero, Nat.div_one]
  have hsign := getElem_iff_toNat w 31 (by decide)
  have hlt := w.isLt
  unfold f32OfWord
  simp only [he, hf, f32Magnitude]
  split
  next h =>
    have hs : w.toNat / 2 ^ 31 = 1 := by
      have := hsign.mp h
      omega
    rw [hs, pow_one, neg_one_mul]
  next h =>
    have hs : w.toNat / 2 ^ 31 = 0 := by
      have := mt hsign.mpr h
      omega
    rw [hs, pow_zero, one_mul]

/-- A subnormal magnitude as a rational number (R97). -/
theorem f32Magnitude_subnormal (f : Nat) :
    (f32Magnitude 0 f : ℚ) / 2 ^ 149 = (2 : ℚ) ^ (-126 : Int) * ((f : ℚ) / 2 ^ 23) := by
  rw [f32Magnitude, if_pos rfl, zpow_neg]
  field_simp

/-- A normal magnitude as a rational number (R97). -/
theorem f32Magnitude_normal (e f : Nat) (h : 1 ≤ e) :
    (f32Magnitude e f : ℚ) / 2 ^ 149 = (2 : ℚ) ^ ((e : Int) - 127) * (1 + (f : ℚ) / 2 ^ 23) := by
  obtain ⟨d, rfl⟩ := Nat.exists_eq_add_of_le' h
  rw [f32Magnitude, if_neg (Nat.succ_ne_zero d), Nat.add_sub_cancel,
    show ((d + 1 : Nat) : Int) - 127 = (d : Int) - 126 by push_cast; ring, zpow_sub₀ (by norm_num), zpow_natCast]
  push_cast
  field_simp
  ring

/-- Settles O5: the fields are quotients and remainders of CFG, and a word's value is its sign times its magnitude. -/
theorem configurationFieldsSitAsMapped : Obligations.ConfigurationFieldsSitAsMapped := by
  unfold Obligations.ConfigurationFieldsSitAsMapped
  refine ⟨fun S => ?_, fun w => ?_⟩
  · have hpeak : S.peak = 2 ^ (S.cfg.toNat % 32) - 1 := by rw [CmdRegs.peak, S.bits_eq]
    refine ⟨S.bits_eq, toNat_field S.cfg 5 2, getElem_iff_toNat S.cfg 7 (by decide), toNat_field S.cfg 8 4, ?_, ?_,
      hpeak, ?_⟩
    · rw [CmdRegs.unit, S.bits_eq]
    · rw [CmdRegs.mid, S.bits_eq]
    · rw [CmdRegs.blend, S.radius_eq, hpeak]
  · intro sign e f
    have hvalue : (f32OfWord w : ℚ) / 2 ^ 149 = (-1) ^ sign * ((f32Magnitude e f : ℚ) / 2 ^ 149) := by
      rw [f32OfWord_eq, mul_div_assoc']
      push_cast
      rfl
    refine ⟨fun he => ?_, fun he _ => ?_⟩
    · rw [hvalue, he, f32Magnitude_subnormal]
    · rw [hvalue, f32Magnitude_normal e f he]

end Sys2Proof.Machine

/-! PROOFS of the memory family: the checks of START, what the end of a command writes, the commands' results, and the
host's accesses to memory. -/

namespace Sys2Proof.Machine

/-! ### The checks of START (R233) -/

/-- A vector-width code is illegal when it is past the last code or names a width that is not built (R27, R202). -/
theorem vwLegal_eq_false (b : Build) (v : Nat) :
    vwLegal b v = false ↔ 4 < v ∨ (1 ≤ v ∧ b.vwSupported.getLsbD (v - 1) = false) := by
  simp only [vwLegal, decide_eq_false_iff_not]
  cases b.vwSupported.getLsbD (v - 1) <;> simp <;> omega

/-- A word with exponent field 255 is no finite number (R29). -/
theorem nonFinite_iff (w : Word) : nonFinite w = true ↔ w.toNat / 2 ^ 23 % 256 = 255 := by
  rw [nonFinite, beq_iff_eq, ← BitVec.toNat_inj, toNat_field]
  rfl

/-- A bit of a word from bit `lo` on is set when the number is 2^lo or more (R8). -/
theorem extractLsb'_high_ne_zero (w : Word) (lo n : Nat) (h : lo + n = 32) :
    (w.extractLsb' lo n != 0) = true ↔ w.toNat / 2 ^ lo ≠ 0 := by
  have hlt : w.toNat / 2 ^ lo < 2 ^ n :=
    Nat.div_lt_of_lt_mul (by rw [← Nat.pow_add, h]; exact w.isLt)
  rw [bne_iff_ne, ne_eq, ← BitVec.toNat_inj, toNat_field, Nat.mod_eq_of_lt hlt]
  simp

theorem CmdRegs.mode_lt (S : CmdRegs) : S.mode < 4 := (S.cfg.extractLsb' 5 2).isLt

/-- Code 2, condition by condition (R233). -/
theorem configBad_iff (b : Build) (S : CmdRegs) :
    configBad b S = true ↔
      S.cfg.toNat / 4096 ≠ 0 ∨ S.bits ∉ [8, 10, 12, 14, 16] ∨ S.mode = 2 ∨ S.mode = 3 ∨ 4 < S.vw ∨
        (1 ≤ S.vw ∧ b.vwSupported.getLsbD (S.vw - 1) = false) ∨ S.amnt.toNat / 65536 ≠ 0 ∨ S.peak < S.amnt.toNat ∨
        S.sstr.toNat / 2 ^ 23 % 256 = 255 ∨ S.scl.toNat / 2 ^ 23 % 256 = 255 := by
  have hmode : 2 ≤ S.mode ↔ S.mode = 2 ∨ S.mode = 3 := by
    have := S.mode_lt
    omega
  have hbits : (!(S.bits == 8 || S.bits == 10 || S.bits == 12 || S.bits == 14 || S.bits == 16)) = true ↔
      S.bits ∉ [8, 10, 12, 14, 16] := by simp [and_assoc]
  simp only [configBad, Bool.or_eq_true, hbits, decide_eq_true_eq, hmode, Bool.not_eq_true', vwLegal_eq_false,
    nonFinite_iff, extractLsb'_high_ne_zero S.cfg 12 20 rfl, extractLsb'_high_ne_zero S.amnt 16 16 rfl, or_assoc]
  rfl

/-- A word is zero when its number is. -/
theorem toNat_pos_iff (w : Word) : 0 < w.toNat ↔ w ≠ 0 := by
  rw [Nat.pos_iff_ne_zero, ne_eq, ne_eq, ← BitVec.toNat_inj]
  rfl

/-- Code 3, descriptor by descriptor (R233). -/
theorem geometryBad_iff (op : Instr) (S : CmdRegs) :
    geometryBad op S = true ↔
      ∃ k ∈ usedSlots op S, (S.desc k).width ≠ S.d3.width ∨ (S.desc k).height ≠ S.d3.height ∨
        (S.desc k).pitch.toNat < (S.desc k).width.toNat * S.unit ∨
        ((S.desc k).width ≠ 0 ∧ (S.desc k).height ≠ 0 ∧
          2 ^ 32 < (S.desc k).base.toNat + ((S.desc k).height.toNat - 1) * (S.desc k).pitch.toNat
            + (S.desc k).width.toNat * S.unit) := by
  simp only [geometryBad, List.any_eq_true, Desc.badGeometry, Bool.or_eq_true, decide_eq_true_eq, toNat_pos_iff,
    memLimit, or_assoc]

/-- Code 4: an odd base or pitch at two bytes a sample (R67, R233). -/
theorem alignBad_iff (op : Instr) (S : CmdRegs) :
    alignBad op S = true ↔
      S.unit = 2 ∧ ∃ k ∈ usedSlots op S, (S.desc k).base.toNat % 2 = 1 ∨ (S.desc k).pitch.toNat % 2 = 1 := by
  simp only [alignBad, Bool.and_eq_true, beq_iff_eq, List.any_eq_true, Bool.or_eq_true, getElem_iff_toNat, Nat.pow_zero,
    Nat.div_one]

/-- Code 5: a plane larger than the scratch store (R35, R233). -/
theorem capacityBad_iff (b : Build) (op : Instr) (S : CmdRegs) :
    capacityBad b op S = true ↔
      (op = .sbr ∨ op = .filter) ∧ (b.maxW.toNat < S.d3.width.toNat ∨ b.maxH.toNat < S.d3.height.toNat) := by
  simp only [capacityBad, Bool.and_eq_true, Bool.or_eq_true, beq_iff_eq, decide_eq_true_eq]

/-- Code 6: an input extent that shares a byte with the destination's (R71, R233). -/
theorem overlapBad_iff (op : Instr) (S : CmdRegs) :
    overlapBad op S = true ↔
      ∃ k ∈ inputSlots op S, ∃ a, ((S.desc k).extent S.unit).has a = true ∧ (S.d3.extent S.unit).has a = true := by
  simp only [overlapBad, List.any_eq_true, Extent.meets_iff]

/-- Validation looks at the five checks in order and reports the first that fires (R233, R235). -/
theorem validate_reports_first (b : Build) (op : Instr) (S : CmdRegs) :
    let config := configBad b S = true
    let geometry := geometryBad op S = true
    let align := alignBad op S = true
    let capacity := capacityBad b op S = true
    let overlap := overlapBad op S = true
    (validate b op S = some .config ↔ config) ∧
    (validate b op S = some .geometry ↔ ¬config ∧ geometry) ∧
    (validate b op S = some .align ↔ ¬config ∧ ¬geometry ∧ align) ∧
    (validate b op S = some .capacity ↔ ¬config ∧ ¬geometry ∧ ¬align ∧ capacity) ∧
    (validate b op S = some .overlap ↔ ¬config ∧ ¬geometry ∧ ¬align ∧ ¬capacity ∧ overlap) ∧
    (validate b op S = none ↔ ¬config ∧ ¬geometry ∧ ¬align ∧ ¬capacity ∧ ¬overlap) := by
  unfold validate
  cases configBad b S <;> cases geometryBad op S <;> cases alignBad op S <;> cases capacityBad b op S <;>
    cases overlapBad op S <;> simp

/-- Settles O14: each check fires exactly on its written-out condition, and the first that fires is reported. -/
theorem firstFailingCheckIsReported : Obligations.FirstFailingCheckIsReported := by
  unfold Obligations.FirstFailingCheckIsReported
  intro b op S
  simpa only [configBad_iff, geometryBad_iff, alignBad_iff, capacityBad_iff, overlapBad_iff] using
    validate_reports_first b op S

/-! ### What the end of a command writes (R69) -/

/-- Every way a running command ends writes destination cells only (R61, R69, R75, R77, R240). -/
theorem finishCommand_onlyDestCells {op : Instr} {k : Kernel} {s t : State} (h : finishCommand op k s = .next t) :
    OnlyDestCells s.snap s.mem t.mem := by
  have hfree : OnlyDestCells s.snap s.mem (freeDest s.snap s.draws s.mem) := fun a ha =>
    read_freeDest_other _ _ _ a ha
  obtain ⟨-, hf⟩ | ⟨-, ⟨-, hf⟩ | ⟨-, ⟨e, es, -, hf⟩ | ⟨-, ⟨-, hf⟩ | ⟨-, hf⟩⟩⟩⟩ := finishCommand_cases op k s <;>
    cases hf.symm.trans h
  · exact hfree
  · exact hfree
  · exact hfree
  · exact fun a ha => read_destWrites_other _ _ _ a ha

theorem exec_onlyDestCells {op : Instr} {s t : State} (hop : op ≠ .nop) (hb : s.status.busy = true)
    (h : exec op s = .next t) : OnlyDestCells s.snap s.mem t.mem := by
  obtain ⟨k, hk⟩ := exec_busy op s hop hb
  exact finishCommand_onlyDestCells (hk ▸ h)

/-- The cells of a plane lie in its extent (R66). -/
theorem Desc.extent_has_of_inCells (d : Desc) (u a : Nat) (h : d.inCells u a = true) : (d.extent u).has a = true := by
  simp only [Desc.inCells, List.any_eq_true, List.mem_range, decide_eq_true_eq, Desc.addr, Nat.zero_mul,
    Nat.add_zero] at h
  obtain ⟨y, hy, h1, h2⟩ := h
  have hwidth : 0 < d.width.toNat := Nat.pos_of_ne_zero fun h0 => by
    rw [h0] at h2
    omega
  have hnonempty : ¬(d.width = 0 ∨ d.height = 0) :=
    not_or.mpr ⟨(toNat_pos_iff _).mp hwidth, (toNat_pos_iff _).mp (by omega)⟩
  have hrow : y * d.pitch.toNat ≤ (d.height.toNat - 1) * d.pitch.toNat := Nat.mul_le_mul_right _ (by omega)
  rw [Desc.extent, if_neg hnonempty]
  simp only [Extent.has, decide_eq_true_eq]
  omega

theorem Running.overlap {op : Instr} {s : State} (h : Running op s) : overlapBad op s.snap = false := by
  obtain ⟨-, hval, -⟩ := h
  obtain ⟨-, -, -, -, hoverlap⟩ := (validate_none_iff _ _ _).mp hval
  exact hoverlap

/-- No byte of an input extent of a validated command is a destination cell (R71, R233). -/
theorem inCells_of_input {op : Instr} {s : State} (h : Running op s) {k : Slot} (hk : k ∈ inputSlots op s.snap)
    {a : Nat} (ha : ((s.snap.desc k).extent s.snap.unit).has a = true) :
    s.snap.d3.inCells s.snap.unit a = false := by
  by_contra hc
  have hdest := Desc.extent_has_of_inCells _ _ _ (Bool.eq_true_of_not_eq_false hc)
  have hmeets := (overlapBad_iff op s.snap).mpr ⟨k, hk, a, ha, hdest⟩
  exact absurd h.overlap (by simp [hmeets])

/-- Settles O26: only destination cells change, and no byte of an input extent is one. -/
theorem inputPlanesAreNeverWritten : Obligations.InputPlanesAreNeverWritten := by
  unfold Obligations.InputPlanesAreNeverWritten
  intro op s t hop hr hx k hk a ha
  exact exec_onlyDestCells hop hr.1 hx a (inCells_of_input hr hk ha)

/-! ### That a command ends -/

/-- Every way a running command ends clears BUSY and leaves the model's own input alone (R75, R241). -/
theorem finishCommand_idle {op : Instr} {k : Kernel} {s t : State} (h : finishCommand op k s = .next t) :
    t.status.busy = false ∧ t.turns = s.turns ∧ t.host = s.host := by
  obtain ⟨-, hf⟩ | ⟨-, ⟨-, hf⟩ | ⟨-, ⟨e, es, -, hf⟩ | ⟨-, ⟨-, hf⟩ | ⟨-, hf⟩⟩⟩⟩ := finishCommand_cases op k s <;>
    cases hf.symm.trans h <;> exact ⟨rfl, rfl, rfl⟩

/-- A validated command does not stop the machine (R94, R233). -/
theorem finishCommand_next {op : Instr} {k : Kernel} {s : State} (h : geometryBad op s.snap = false) :
    ∃ t, finishCommand op k s = .next t := by
  obtain ⟨hout, -⟩ | ⟨-, ⟨-, hf⟩ | ⟨-, ⟨e, es, -, hf⟩ | ⟨-, ⟨-, hf⟩ | ⟨-, hf⟩⟩⟩⟩ := finishCommand_cases op k s
  · rw [reachesOutside_of_valid op s.snap h] at hout
    cases hout
  all_goals exact ⟨_, hf⟩

theorem exec_ends {op : Instr} {s : State} (hop : op ≠ .nop) (h : Running op s) :
    ∃ t, exec op s = .next t ∧ t.status.busy = false ∧ t.turns = s.turns ∧ t.host = s.host := by
  obtain ⟨k, hk⟩ := exec_busy op s hop h.1
  obtain ⟨t, ht⟩ := finishCommand_next (k := k) h.geometry
  exact ⟨t, hk.trans ht, finishCommand_idle ht⟩

/-- Settles O25: the end clears BUSY like every other, and like every other keeps the build and writes destination
cells only. -/
theorem windowCommandStillEnds : Obligations.WindowCommandStillEnds := by
  unfold Obligations.WindowCommandStillEnds
  intro op s hop hr _
  obtain ⟨t, hx, hidle, -, -⟩ := exec_ends hop hr
  exact ⟨t, hx, hidle, exec_build hx, exec_onlyDestCells hop hr.1 hx⟩

/-- Settles O59: the invariant names the running command, which passed every check, so its end is no stop. -/
theorem coreTurnEndsTheCommand : Obligations.CoreTurnEndsTheCommand := by
  unfold Obligations.CoreTurnEndsTheCommand
  intro s h hb hm
  obtain ⟨-, -, -, -, -, i, hi, hdec, hval, -⟩ := h.running hb
  rw [step_of_run (nextAction_core hm hb hdec)]
  exact exec_ends (s := { s with turns := s.turns.tail }) hi ⟨hb, hval, h.memory⟩

/-! ### The end with DONE (R65, R77, R241) -/

/-- A disturbed end keeps every register but STATUS and sets DONE (R65, R77). -/
theorem endUnspecified_ended (s : State) : EndedDone s (endUnspecified s) :=
  { kept := ⟨rfl, rfl, rfl, rfl, rfl, rfl, rfl, rfl, rfl⟩, status := rfl, irq := by simp [endUnspecified] }

/-- With neither a bus error nor a byte of the register window in reach, two ends are left, both with DONE (R241). -/
theorem finishCommand_ended {op : Instr} {k : Kernel} {s : State} (h : geometryBad op s.snap = false)
    (hw : AwayFromWindow op s) (he : NoBusError op s) :
    ∃ t, finishCommand op k s = .next t ∧ EndedDone s t := by
  obtain ⟨hout, -⟩ | ⟨-, ⟨hwin, -⟩ | ⟨-, ⟨e, es, hfail, -⟩ | ⟨-, ⟨-, hf⟩ | ⟨-, hf⟩⟩⟩⟩ := finishCommand_cases op k s
  · simp [reachesOutside_of_valid op s.snap h] at hout
  · simp [reachesWindow_of_away op s hw] at hwin
  · simp [failingAccesses_of_noBusError op s he] at hfail
  · exact ⟨_, hf, endUnspecified_ended s⟩
  · exact ⟨_, hf, endNormally_ended _ s⟩

/-- Settles O23: samples and breaches only choose between the two ends with DONE. -/
theorem noDataDependentError : Obligations.NoDataDependentError := by
  unfold Obligations.NoDataDependentError
  intro op s hop hr he hw
  obtain ⟨k, hk⟩ := exec_busy op s hop hr.1
  obtain ⟨t, ht, hdone⟩ := finishCommand_ended (k := k) hr.geometry hw he
  exact ⟨t, hk.trans ht, hdone, finishCommand_onlyDestCells ht⟩

/-! ### Samples in 0 .. P -/

/-- The samples of the running command's planes are in 0 .. P (R65). -/
def InRange (S : CmdRegs) (F : Samples) : Prop :=
  ∀ y < S.rows, ∀ x < S.cols, 0 ≤ F y x ∧ F y x ≤ S.peak

/-- Every command but NOP reads D0 (R93). -/
theorem d0_mem_inputSlots (op : Instr) (S : CmdRegs) (h : op ≠ .nop) : .d0 ∈ inputSlots op S := by
  cases op with
  | nop => exact absurd rfl h
  | filter => cases he : S.eclip <;> simp [inputSlots, he]
  | _ => simp [inputSlots]

/-- An undisturbed command reads samples of D0 in 0 .. P only (R65). -/
theorem Undisturbed.d0_inRange {op : Instr} {s : State} (hop : op ≠ .nop) (hu : Undisturbed op s) :
    InRange s.snap (inputAt s .d0) := by
  obtain ⟨-, hrange, -, -⟩ := hu
  exact fun y hy x hx =>
    ⟨Int.natCast_nonneg _, Int.ofNat_le.mpr (hrange .d0 (d0_mem_inputSlots op s.snap hop) y hy x hx)⟩

/-- A reflected row lies in the plane, so its samples are in range too (R120). -/
theorem InRange.reflected {S : CmdRegs} {F : Samples} (h : InRange S F) (i : Int) {y x : Nat} (hy : y < S.rows)
    (hx : x < S.cols) : 0 ≤ F (reflRow i S.rows) x ∧ F (reflRow i S.rows) x ≤ S.peak :=
  h _ (reflRow_lt S.rows i (by omega)) x hx

theorem threeTap_inRange {S : CmdRegs} {F : Samples} (h : InRange S F) : InRange S (threeTap S.rows F) := by
  intro y hy x hx
  have habove := h.reflected ((y : Int) - 1) hy hx
  have hbelow := h.reflected ((y : Int) + 1) hy hx
  have hself := h y hy x hx
  unfold threeTap
  omega

theorem fiveTap_inRange {S : CmdRegs} {F : Samples} (h : InRange S F) : InRange S (fiveTap S.rows F) := by
  intro y hy x hx
  have habove2 := h.reflected ((y : Int) - 2) hy hx
  have habove := h.reflected ((y : Int) - 1) hy hx
  have hbelow := h.reflected ((y : Int) + 1) hy hx
  have hbelow2 := h.reflected ((y : Int) + 2) hy hx
  have hself := h y hy x hx
  unfold fiveTap
  omega

theorem difference_inRange (S : CmdRegs) (F G : Samples) : InRange S (difference S.mid S.peak F G) := fun y _ x _ =>
  difference_range S.mid S.peak F G y x

/-- The restorer's output lies between the sample and the sample less its whole local signal (R151). -/
theorem sbrPixel_between (mid : Nat) (s r q : Int) :
    min s (s - r + mid) ≤ sbrPixel mid s r q ∧ sbrPixel mid s r q ≤ max s (s - r + mid) := by
  unfold sbrPixel
  dsimp only
  split
  · omega
  next hsign =>
    split
    next hsmall =>
      have hpos : 0 < r - mid → 0 ≤ r - q := fun h => by
        by_contra hc
        exact hsign (mul_neg_of_neg_of_pos (by omega) h)
      have hneg : r - mid < 0 → r - q ≤ 0 := fun h => by
        by_contra hc
        exact hsign (mul_neg_of_pos_of_neg (by omega) h)
      omega
    · omega

/-- A sample and its 3-tap blur differ by less than half the range, so the residual's clamp does not engage (R153). -/
theorem difference_threeTap {S : CmdRegs} {F : Samples} (h : InRange S F) (hP : S.peak + 1 = 2 * S.mid) (y x : Nat)
    (hy : y < S.rows) (hx : x < S.cols) :
    difference S.mid S.peak F (threeTap S.rows F) y x = F y x - threeTap S.rows F y x + S.mid := by
  have habove := h.reflected ((y : Int) - 1) hy hx
  have hbelow := h.reflected ((y : Int) + 1) hy hx
  have hself := h y hy x hx
  unfold difference threeTap clamp
  omega

/-- The restorer needs no saturation: its output lies between the sample and its local mean (R153). -/
theorem restored_inRange {S : CmdRegs} {F : Samples} (h : InRange S F) (hP : S.peak + 1 = 2 * S.mid) :
    InRange S (restored S.rows S.mid S.peak F) := by
  intro y hy x hx
  have hself := h y hy x hx
  have hmean := threeTap_inRange h y hy x hx
  have hbetween := sbrPixel_between S.mid (F y x) (difference S.mid S.peak F (threeTap S.rows F) y x)
    (threeTap S.rows (difference S.mid S.peak F (threeTap S.rows F)) y x)
  have hres := difference_threeTap h hP y x hy hx
  unfold restored
  omega

theorem bufferA_inRange {S : CmdRegs} {F : Samples} (h : InRange S F) (hP : S.peak + 1 = 2 * S.mid) :
    InRange S (bufferA S F) := by
  unfold bufferA
  split
  · exact threeTap_inRange h
  · exact restored_inRange h hP

/-- The blend of a source sample in 0 .. P is in 0 .. P (R179, R180). -/
theorem pixel_range (p : Blend) (s b r : Int) (h : 0 ≤ s ∧ s ≤ p.peak) :
    0 ≤ p.pixel s b r ∧ p.pixel s b r ≤ p.peak := by
  have henv := reconstruct_range (if p.eclip then r else b) (p.addend (s - b) (p.signal s b r))
    (max (s - p.radius) 0) (min (s + p.radius) p.peak) (by omega)
  unfold Blend.pixel
  dsimp only
  omega

/-! ### The kernels on stored planes -/

theorem sbr_holds {S : CmdRegs} {X : Plane} {F : Samples} (hF : X.Holds S F) (h : InRange S F)
    (hP : S.peak + 1 = 2 * S.mid) : (sbr S X).Holds S (restored S.rows S.mid S.peak F) := by
  intro y hy x hx
  have hres := resid_holds S X _ F _ hF (blur3_holds S X F hF)
  have hrange := (restored_inRange h hP y hy x hx).1
  simp only [sbr, Plane.at_make _ _ _ _ _ hy hx, hF y hy x hx, hres y hy x hx, blur3_holds S _ _ hres y hy x hx]
  exact Int.toNat_of_nonneg hrange

theorem stageA_holds {S : CmdRegs} {X : Plane} {F : Samples} (hF : X.Holds S F) (h : InRange S F)
    (hP : S.peak + 1 = 2 * S.mid) : (stageA S X).Holds S (bufferA S F) := by
  unfold stageA bufferA
  split
  · exact blur3_holds S X F hF
  · exact sbr_holds hF h hP

theorem finalPlane_holds {S : CmdRegs} {X B R : Plane} {F G K : Samples} (hF : X.Holds S F) (hG : B.Holds S G)
    (hK : R.Holds S K) (h : InRange S F) :
    (finalPlane S S.blend X B R).Holds S fun y x => S.blend.pixel (F y x) (G y x) (K y x) := by
  intro y hy x hx
  rw [finalPlane, Plane.at_make _ _ _ _ _ hy hx, hF y hy x hx, hG y hy x hx, hK y hy x hx]
  exact Int.toNat_of_nonneg (pixel_range _ _ _ _ (h y hy x hx)).1

theorem finalPixel_inRange {S : CmdRegs} {F : Samples} (h : InRange S F) (G K : Samples) :
    InRange S fun y x => S.blend.pixel (F y x) (G y x) (K y x) := fun y hy x hx =>
  pixel_range S.blend _ _ _ (h y hy x hx)

/-! ### The commands' results (R75) -/

/-- An undisturbed command leaves in the destination what its rule gives, when that is in 0 .. P. -/
theorem endsWith_of_kernel {op : Instr} {s : State} {f : Samples} (hop : op ≠ .nop) (hr : Running op s)
    (hu : Undisturbed op s) (hf : (kernelOf op s.snap (readPlane s.mem s.snap)).Holds s.snap f)
    (hrange : InRange s.snap f) : EndsWith op s f := by
  obtain ⟨t, ht, hend⟩ := runCommand_result op (kernelOf op) s hop hr hu f fun y hy x hx => by
    have hval := hf y hy x hx
    have hle := (hrange y hy x hx).2
    exact ⟨hval, by omega⟩
  exact ⟨t, (exec_eq_runCommand op s hop).trans ht, hend⟩

/-- At the depth of a running command P = 2H - 1 (R200). -/
theorem Running.peak_mid {op : Instr} {s : State} (h : Running op s) : s.snap.peak + 1 = 2 * s.snap.mid :=
  (Machine.peak_mid _ h.bits).1

/-- Settles O16: an average of samples in 0 .. P is in 0 .. P, so it fits its cell. -/
theorem blur3WritesThreeTapAverages : Obligations.Blur3WritesThreeTapAverages := by
  unfold Obligations.Blur3WritesThreeTapAverages
  intro s hr hu
  have hin := hu.d0_inRange (by decide)
  exact endsWith_of_kernel (by decide) hr hu (blur3_holds _ _ _ (readPlane_holds s .d0)) (threeTap_inRange hin)

/-- Settles O17, like O16, with the 5-tap average. -/
theorem blur5WritesFiveTapAverages : Obligations.Blur5WritesFiveTapAverages := by
  unfold Obligations.Blur5WritesFiveTapAverages
  intro s hr hu
  have hin := hu.d0_inRange (by decide)
  exact endsWith_of_kernel (by decide) hr hu (blur5_holds _ _ _ (readPlane_holds s .d0)) (fiveTap_inRange hin)

/-- The residual formula with H and P written out from the depth (R140, R200). -/
theorem difference_eq (S : CmdRegs) (F G : Samples) :
    difference S.mid S.peak F G = fun y x =>
      min (max (F y x - G y x + 2 ^ (S.bits - 1)) 0) (2 ^ S.bits - 1) := by
  funext y x
  rw [difference, clamp, CmdRegs.mid, CmdRegs.peak, Nat.cast_sub Nat.one_le_two_pow]
  push_cast
  rfl

/-- Settles O18: the clamp keeps the residual in 0 .. P whatever the samples are. -/
theorem residWritesClampedDifferences : Obligations.ResidWritesClampedDifferences := by
  unfold Obligations.ResidWritesClampedDifferences
  intro s hr hu
  rw [← difference_eq]
  exact endsWith_of_kernel (by decide) hr hu
    (resid_holds _ _ _ _ _ (readPlane_holds s .d0) (readPlane_holds s .d1)) (difference_inRange _ _ _)

/-- Settles O19: the restorer's output needs no saturation, so the stored natural number is its value. -/
theorem sbrWritesTheRestoredPlane : Obligations.SbrWritesTheRestoredPlane := by
  unfold Obligations.SbrWritesTheRestoredPlane
  intro s hr hu
  have hin := hu.d0_inRange (by decide)
  exact endsWith_of_kernel (by decide) hr hu (sbr_holds (readPlane_holds s .d0) hin hr.peak_mid)
    (restored_inRange hin hr.peak_mid)

/-- Settles O20: the envelope of R179 keeps the blend in 0 .. P. -/
theorem finalWritesTheBlend : Obligations.FinalWritesTheBlend := by
  unfold Obligations.FinalWritesTheBlend
  intro s hr hu
  have hin := hu.d0_inRange (by decide)
  exact endsWith_of_kernel (by decide) hr hu
    (finalPlane_holds (readPlane_holds s .d0) (readPlane_holds s .d1) (readPlane_holds s .d2) hin)
    (finalPixel_inRange hin _ _)

/-- The pipeline on samples: buffer A, and against it the clip of D1 or the 5-tap blur of A (R205). -/
theorem filterKernel_holds {S : CmdRegs} {read : Slot → Plane} {F K : Samples} (hF : (read .d0).Holds S F)
    (hK : (read .d1).Holds S K) (h : InRange S F) (hP : S.peak + 1 = 2 * S.mid) :
    (filterKernel S read).Holds S fun y x =>
      S.blend.pixel (F y x) (bufferA S F y x) (if S.eclip then K y x else fiveTap S.rows (bufferA S F) y x) := by
  have hA := stageA_holds hF h hP
  unfold filterKernel
  cases S.eclip with
  | true => exact finalPlane_holds hF hA hK h
  | false => exact finalPlane_holds hF hA (blur5_holds S _ _ hA) h

/-- Settles O21: buffer A and the reference are the planes of the stages before, and the envelope keeps the blend in
0 .. P. -/
theorem filterRunsThePipeline : Obligations.FilterRunsThePipeline := by
  unfold Obligations.FilterRunsThePipeline
  intro s hr hu
  have hin := hu.d0_inRange (by decide)
  exact endsWith_of_kernel (by decide) hr hu
    (filterKernel_holds (readPlane_holds s .d0) (readPlane_holds s .d1) hin hr.peak_mid)
    (finalPixel_inRange hin _ fun y x => if s.snap.eclip then inputAt s .d1 y x else fiveTap s.snap.rows _ y x)

/-! ### The host's accesses to memory (R64, R101) -/

/-- A 16-bit host write below the last address stores two bytes, bits [7:0] at the lower address (R64, R101). -/
theorem hostOp_memW16 (s : State) (a : Word) (v : BitVec 16) (h : a.toNat + 2 ≤ 2 ^ 32) :
    hostOp (.memW16 a v) s = .settle
      (hostWriteByte (a.toNat + 1) (v.extractLsb' 8 8) (hostWriteByte a.toNat (v.extractLsb' 0 8) s)) := by
  have hin : ¬memLimit < a.toNat + 2 := by
    unfold memLimit
    omega
  simp only [hostOp, hin, if_false]

@[simp] theorem hostWriteByte_status (a : Nat) (v : Byte) (s : State) : (hostWriteByte a v s).status = s.status := by
  unfold hostWriteByte
  split <;> rfl

theorem hostWriteByte_mem (a : Nat) (v : Byte) (s : State) (h : (registerWindow s.build).has a = false) :
    (hostWriteByte a v s).mem = Mem.write s.mem a v := by
  rw [hostWriteByte_memory a v s h]

/-- A 16-bit host write outside the register window is two byte writes to memory, which leave build and STATUS alone. -/
theorem hostOp_memW16_memory (s : State) (a : Word) (v : BitVec 16) (h : a.toNat + 2 ≤ 2 ^ 32)
    (hw : (registerWindow s.build).has a.toNat = false) (hw' : (registerWindow s.build).has (a.toNat + 1) = false) :
    ∃ t, hostOp (.memW16 a v) s = .settle t ∧ t.build = s.build ∧ t.status = s.status ∧
      t.mem = Mem.write (Mem.write s.mem a.toNat (v.extractLsb' 0 8)) (a.toNat + 1) (v.extractLsb' 8 8) := by
  refine ⟨_, hostOp_memW16 s a v h, by simp, by simp, ?_⟩
  rw [hostWriteByte_mem _ _ _ (by simpa using hw'), hostWriteByte_mem _ _ _ hw]

/-- Settles O52: the two byte writes go to two addresses, and on the idle core both bytes are read as they stand. -/
theorem hostCellsAreLittleEndian : Obligations.HostCellsAreLittleEndian := by
  unfold Obligations.HostCellsAreLittleEndian
  intro s a v hidle hm ha hw hw'
  obtain ⟨t, ht, hbuild, hstatus, hmem⟩ := hostOp_memW16_memory s a v ha hw hw'
  have hm1 := Mem.wf_write s.mem a.toNat (v.extractLsb' 0 8) hm a.isLt
  have hlow : (Mem.read t.mem a.toNat).toNat = v.toNat % 256 := by
    rw [hmem, Mem.read_write_other _ _ _ _ (by omega), Mem.read_write_same _ _ _ hm.1, BitVec.extractLsb'_toNat]
    rfl
  have hhigh : (Mem.read t.mem (a.toNat + 1)).toNat = v.toNat / 256 := by
    rw [hmem, Mem.read_write_same _ _ _ hm1.1, BitVec.extractLsb'_toNat, Nat.shiftRight_eq_div_pow]
    omega
  have hidle' : t.status.busy = false := by rw [hstatus, hidle]
  have hbyte (c : Nat) (hc : (registerWindow s.build).has c = false) : hostReadByte c t = Mem.read t.mem c :=
    hostReadByte_eq_read ⟨hbuild ▸ hc, .inl hidle'⟩
  refine ⟨t, ht, hlow, hhigh, fun c h0 h1 => ?_, _, hostOp_memR16 t a ha, ?_, rfl⟩
  · rw [hmem, Mem.read_write_other _ _ _ _ h1, Mem.read_write_other _ _ _ _ h0]
  · rw [returned_readData, hbyte _ hw, hbyte _ hw', toNat_append_add, toNat_append_add, hlow, hhigh]
    simp only [BitVec.toNat_ofNat]
    omega

/-! ### Another core at work (R250) -/

/-- Settles O54: the conflict is a shared byte with a used extent or with the destination. -/
theorem peerBreachesOnOverlap : Obligations.PeerBreachesOnOverlap := by
  unfold Obligations.PeerBreachesOnOverlap
  intro s i dst ins hb hflag hdec
  refine ⟨_, rfl, rfl, rfl, ?_⟩
  simp only [hflag, Bool.false_or, peerConflict, runningExtents_busy s i hb hdec, hb, Bool.true_and, Bool.or_eq_true,
    List.any_map, List.any_eq_true, Function.comp, Extent.meets_iff]

end Sys2Proof.Machine

/-! PROOFS of the encoding family: the opcode map, decode against encode, and the START of an illegal command word. -/

namespace Sys2Proof.Machine

/-! ### The two fields of a command word (R91) -/

/-- The reserved field is clear on the words below 16 (R91). -/
theorem reservedField_eq_zero_iff (w : Word) : w.extractLsb' 4 28 = 0 ↔ w.toNat < 16 := by
  have h := extractLsb'_high_ne_zero w 4 28 rfl
  rw [bne_iff_ne] at h
  constructor
  · intro h0
    by_contra hge
    exact h.mpr (by omega) h0
  · intro hlt
    by_contra h0
    have := h.mp h0
    omega

/-- Where the reserved field is clear, OP is the whole word (R91). -/
theorem opField_toNat {w : Word} (h : w.toNat < 16) : (w.extractLsb' 0 4).toNat = w.toNat := by
  rw [toNat_field]
  omega

/-! ### The decoder, range by range (R99) -/

theorem decode_reservedBits {w : Word} (h : 16 ≤ w.toNat) : decode w = .error .reservedBits :=
  if_pos fun h0 => absurd ((reservedField_eq_zero_iff w).mp h0) (by omega)

theorem decode_reservedOpcode {w : Word} (h : 7 ≤ w.toNat) (h' : w.toNat ≤ 15) :
    decode w = .error .reservedOpcode := by
  have hop := opField_toNat (w := w) (by omega)
  rw [decode, if_neg (not_not.mpr ((reservedField_eq_zero_iff w).mpr (by omega)))]
  split
  case h_8 => rfl
  all_goals omega

/-- A word with the number of a command's encoding decodes to the command. -/
theorem decode_of_toNat {w : Word} (i : Instr) (h : w.toNat = (encode i).toNat) : decode w = .ok i := by
  rw [BitVec.eq_of_toNat_eq h, decode_encode]

/-- The words of 7 and more are no commands (R98). -/
theorem decode_illegal {w : Word} (h : 7 ≤ w.toNat) : ∃ e, decode w = .error e := by
  by_cases h16 : 16 ≤ w.toNat
  · exact ⟨_, decode_reservedBits h16⟩
  · exact ⟨_, decode_reservedOpcode h (by omega)⟩

/-- Settles O1: the seven words below 7 are the encodings, and the others fall into the two illegal ranges. -/
theorem decoderFollowsTheOpcodeMap : Obligations.DecoderFollowsTheOpcodeMap := by
  unfold Obligations.DecoderFollowsTheOpcodeMap
  intro w
  exact ⟨decode_reservedBits, decode_of_toNat .nop, decode_of_toNat .blur3, decode_of_toNat .blur5,
    decode_of_toNat .resid, decode_of_toNat .sbr, decode_of_toNat .final, decode_of_toNat .filter,
    decode_reservedOpcode⟩

/-- Settles O4: each word is a case of the opcode map. -/
theorem writtenWordsDecode : Obligations.WrittenWordsDecode := by
  unfold Obligations.WrittenWordsDecode
  exact ⟨decode_of_toNat .nop rfl, decode_of_toNat .blur3 rfl, decode_of_toNat .resid rfl,
    decode_of_toNat .filter rfl, decode_reservedOpcode (by decide) (by decide), decode_reservedBits (by decide)⟩

/-! ### Decode against encode -/

/-- The encodings take every number from 0 to 6 (R92). -/
theorem exists_encode_toNat : ∀ n : Nat, n < 7 → ∃ i, n = (encode i).toNat
  | 0, _ => ⟨.nop, rfl⟩
  | 1, _ => ⟨.blur3, rfl⟩
  | 2, _ => ⟨.blur5, rfl⟩
  | 3, _ => ⟨.resid, rfl⟩
  | 4, _ => ⟨.sbr, rfl⟩
  | 5, _ => ⟨.final, rfl⟩
  | 6, _ => ⟨.filter, rfl⟩
  | n + 7, h => absurd h (by omega)

/-- A word that decodes is the encoding of some command. -/
theorem exists_encode_of_decode {w : Word} {i : Instr} (h : decode w = .ok i) : ∃ j, w = encode j := by
  by_cases h7 : 7 ≤ w.toNat
  · obtain ⟨e, he⟩ := decode_illegal h7
    rw [he] at h
    cases h
  · obtain ⟨j, hj⟩ := exists_encode_toNat w.toNat (by omega)
    exact ⟨j, BitVec.eq_of_toNat_eq hj⟩

/-- Settles O2: a word that decodes is an encoding, and each encoding decodes to its own command alone. -/
theorem decodeAndEncodeAgree : Obligations.DecodeAndEncodeAgree := by
  unfold Obligations.DecodeAndEncodeAgree
  intro w i
  constructor
  · intro h
    obtain ⟨j, rfl⟩ := exists_encode_of_decode h
    rw [decode_encode] at h
    exact congrArg encode (Except.ok.inj h)
  · rintro rfl
    exact decode_encode i

/-! ### The START of an illegal word (R98, R232) -/

/-- A CTRL write with START and without SRST, out of reset, sets IRQ_EN and then comes to the START (R24). -/
theorem portWrite_start {s : State} {v : Word} (hrst : s.rst = false) (hstart : v[0] = true) (hsrst : v[1] = false) :
    portWrite 0x00C 4 v s = portStart (s.setIrqEn v[2]) := by
  rw [portWrite_accepted _ v s hrst rfl]
  simp [regAt, regWrite, writeCtrl, hstart, hsrst]

theorem portStart_illegal {s : State} {e : Illegal} (h : s.status.busy = false) (hdec : decode s.regs.cmd = .error e) :
    portStart s = .settle (startIllegal s) := by
  simp [portStart, h, hdec]

/-- Settles O9: the CTRL write sets IRQ_EN, and the START then only reports the error. -/
theorem illegalWordFailsAtStart : Obligations.IllegalWordFailsAtStart := by
  unfold Obligations.IllegalWordFailsAtStart
  intro s v e hrst hidle hstart hsrst hdec
  have hsettle := (portWrite_start hrst hstart hsrst).trans (portStart_illegal (s := s.setIrqEn v[2]) hidle hdec)
  exact ⟨_, hsettle, rfl, rfl, rfl, rfl, rfl, rfl, rfl, raiseError_irq _ _⟩

end Sys2Proof.Machine

/-! PROOFS of the convolution family: row reflection, the range of the two blurs' sums and results, and uniform
planes. -/

namespace Sys2Proof.Machine

/-! ### Reflection as a congruence (R120)

`Refl(i, h)` is the one row of the plane congruent to `i` or to `-i` modulo `2(h - 1)`. Evenness and the mirrored rows
follow from that. -/

/-- The reflected row is congruent to the index or to its negation. -/
theorem reflRow_congruent {h : Nat} (hh : 2 ≤ h) (i : Int) :
    2 * ((h : Int) - 1) ∣ i - reflRow i h ∨ 2 * ((h : Int) - 1) ∣ i + reflRow i h := by
  have hpos : 0 < 2 * ((h : Int) - 1) := by omega
  have hnonneg := Int.emod_nonneg i hpos.ne'
  have hlt := Int.emod_lt_of_pos i hpos
  have hdvd : 2 * ((h : Int) - 1) ∣ i - i % (2 * ((h : Int) - 1)) := Int.dvd_self_sub_emod
  simp only [reflRow, if_neg (show h ≠ 1 by omega)]
  split
  · rw [Int.toNat_of_nonneg hnonneg]
    exact .inl hdvd
  · rw [Int.toNat_of_nonneg (by omega), add_sub_left_comm]
    exact .inr (dvd_add dvd_rfl hdvd)

/-- A row of the plane congruent to the index is the reflected row. -/
theorem reflRow_of_dvd_sub {h n : Nat} {i : Int} (hn : n < h) (hc : 2 * ((h : Int) - 1) ∣ i - n) : reflRow i h = n := by
  obtain ⟨k, hk⟩ := hc
  have hmod : i % (2 * ((h : Int) - 1)) = (n : Int) % (2 * ((h : Int) - 1)) := by
    rw [show i = n + 2 * ((h : Int) - 1) * k by omega, Int.add_mul_emod_self_left]
  rw [← reflRow_self h n hn]
  simp only [reflRow, hmod]

/-- A row of the plane congruent to the index's negation is the reflected row. -/
theorem reflRow_of_dvd_add {h n : Nat} {i : Int} (hn : n < h) (hc : 2 * ((h : Int) - 1) ∣ i + n) : reflRow i h = n := by
  by_cases hz : n = 0
  · subst hz
    exact reflRow_of_dvd_sub hn (by simpa using hc)
  · obtain ⟨k, hk⟩ := hc
    have hmod : i % (2 * ((h : Int) - 1)) = 2 * ((h : Int) - 1) - n := by
      rw [← Int.emod_eq_of_lt (a := 2 * ((h : Int) - 1) - n) (b := 2 * ((h : Int) - 1)) (by omega) (by omega),
        show i = 2 * ((h : Int) - 1) - n + 2 * ((h : Int) - 1) * (k - 1) by linarith, Int.add_mul_emod_self_left]
    simp only [reflRow, if_neg (show h ≠ 1 by omega), hmod]
    split <;> omega

/-- Reflection is even. -/
theorem reflRow_neg {h : Nat} (hh : 2 ≤ h) (i : Int) : reflRow (-i) h = reflRow i h := by
  have hlt := reflRow_lt h i (by omega)
  rcases reflRow_congruent hh i with hc | hc
  · exact reflRow_of_dvd_add hlt (by rwa [neg_add_eq_sub, dvd_sub_comm])
  · exact reflRow_of_dvd_sub hlt (by rwa [← neg_add', dvd_neg])

/-- Reflection has period 2(h - 1). -/
theorem reflRow_add_period (h : Nat) (i : Int) : reflRow (i + 2 * ((h : Int) - 1)) h = reflRow i h := by
  simp only [reflRow, Int.add_emod_right]

/-- Settles O30: evenness is a law of the congruence that names the row, the period one of the modulus. -/
theorem reflectionStaysInThePlane : Obligations.ReflectionStaysInThePlane := by
  unfold Obligations.ReflectionStaysInThePlane
  exact fun h i hh => ⟨reflRow_lt h i (by omega), reflRow_neg hh i, reflRow_add_period h i⟩

/-! ### The mirrored rows (R121) -/

/-- Past the first row the plane is mirrored at row 0. -/
theorem reflRow_above {h k : Nat} (hk : k < h) : reflRow (-(k : Int)) h = k :=
  reflRow_of_dvd_add hk (by simp)

/-- Past the last row the plane is mirrored at row h - 1. -/
theorem reflRow_below {h k : Nat} (hk : k < h) : reflRow ((h : Int) - 1 + k) h = h - 1 - k :=
  reflRow_of_dvd_add (by omega) ⟨1, by omega⟩

/-- Settles O29: two mirrors at each edge for h of 3 and more, and the iteration below that. -/
theorem reflectionReachesTheseRows : Obligations.ReflectionReachesTheseRows := by
  unfold Obligations.ReflectionReachesTheseRows
  refine fun h => ⟨fun hh => ⟨reflRow_above (k := 1) (by omega), reflRow_above (k := 2) (by omega), ?_, ?_,
    reflRow_self h⟩, ?_, ?_⟩
  · have hrow := reflRow_below (h := h) (k := 1) (by omega)
    rwa [Nat.cast_one, sub_add_cancel] at hrow
  · have hrow := reflRow_below (h := h) (k := 2) (by omega)
    rwa [Nat.cast_two, show (h : Int) - 1 + 2 = h + 1 by ring] at hrow
  · rintro rfl
    decide
  · rintro rfl i
    exact Nat.lt_one_iff.mp (reflRow_lt 1 i le_rfl)

/-! ### The blurs' sums (R127) -/

/-- Settles O31: the weights sum to 4 and 16, so the sums lie in 2 .. 4P + 2 and 8 .. 16P + 8. -/
theorem blursNeverExceedThePeak : Obligations.BlursNeverExceedThePeak := by
  unfold Obligations.BlursNeverExceedThePeak
  intro bits h P X hP hX y x row sum3 sum5
  have habove2 : 0 ≤ row (-2) ∧ row (-2) ≤ P := hX _ x
  have habove : 0 ≤ row (-1) ∧ row (-1) ≤ P := hX _ x
  have hself := hX y x
  have hbelow : 0 ≤ row 1 ∧ row 1 ≤ P := hX _ x
  have hbelow2 : 0 ≤ row 2 ∧ row 2 ≤ P := hX _ x
  have hsum3 : 2 ≤ sum3 ∧ sum3 ≤ 4 * P + 2 := by omega
  have hsum5 : 8 ≤ sum5 ∧ sum5 ≤ 16 * P + 8 := by omega
  have hacc3 : (2 : Int) ^ (bits + 2) = 4 * P + 4 := by rw [hP]; ring
  have hacc5 : (2 : Int) ^ (bits + 4) = 16 * P + 16 := by rw [hP]; ring
  have hresult3 : threeTap h X y x = sum3 / 4 := rfl
  have hresult5 : fiveTap h X y x = sum5 / 16 := rfl
  omega

/-! ### Uniform planes (R124, R126, R154) -/

theorem threeTap_const (h : Nat) (c : Int) : threeTap h (fun _ _ => c) = fun _ _ => c := by
  funext y x
  simp only [threeTap]
  omega

theorem fiveTap_const (h : Nat) (c : Int) : fiveTap h (fun _ _ => c) = fun _ _ => c := by
  funext y x
  simp only [fiveTap]
  omega

/-- The residual of a plane against itself is the middle everywhere (R140). -/
theorem difference_self {mid peak : Nat} (h : mid ≤ peak) (F : Samples) :
    difference mid peak F F = fun _ _ => (mid : Int) := by
  funext y x
  unfold difference clamp
  omega

/-- Where the residual and its blur are both the middle, the sample stays (R151). -/
theorem sbrPixel_mid (mid : Nat) (s : Int) : sbrPixel mid s mid mid = s := by
  simp [sbrPixel]

theorem restored_const (h : Nat) {mid peak : Nat} (hm : mid ≤ peak) (c : Int) :
    restored h mid peak (fun _ _ => c) = fun _ _ => c := by
  simp only [restored, threeTap_const, difference_self hm, sbrPixel_mid]

/-- Settles O35: the mean of equal samples is their value, so the residual is the middle everywhere. -/
theorem flatPlaneIsUnchanged : Obligations.FlatPlaneIsUnchanged := by
  unfold Obligations.FlatPlaneIsUnchanged
  intro h H c hH _ _ y x
  rw [threeTap_const, fiveTap_const, restored_const h (by omega)]
  exact ⟨rfl, rfl, rfl⟩

end Sys2Proof.Machine

/-! PROOFS of the residual family: the range of a residual sample, and the accumulator that holds the unclamped
difference. -/

namespace Sys2Proof.Machine

/-- The clamp keeps a residual sample within the peak, whatever the two samples are (R140). -/
theorem residSample_le_peak (mid peak x y : Nat) : residSample mid peak x y ≤ peak :=
  Int.toNat_le.mpr (difference_range mid peak (fun _ _ => x) (fun _ _ => y) 0 0).2

/-- Settles O32: the unclamped value is within 3H - 1 of zero, and `bits + 2` signed bits hold 4H on either side. -/
theorem residualRangeLaw : Obligations.ResidualRangeLaw := by
  unfold Obligations.ResidualRangeLaw
  intro bits H x y hbits hH hx hy sum
  have hpos : 0 < H := hH ▸ Nat.two_pow_pos _
  have hsample := residSample_le_peak H (2 * H - 1) x y
  have hlow : -((H : Int) - 1) ≤ sum := by omega
  have hhigh : sum ≤ 3 * (H : Int) - 1 := by omega
  have hacc : (2 : Int) ^ (bits + 1) = 4 * H := by
    obtain ⟨n, rfl⟩ := Nat.exists_eq_add_of_le' hbits
    rw [hH, Nat.add_sub_cancel]
    push_cast
    ring
  omega

end Sys2Proof.Machine

/-! PROOFS of the restorer family: the decision per sample by the signs of the two signals, and the range of the
restorer's output. -/

namespace Sys2Proof.Machine

/-! ### The decision per sample (R151, R152) -/

/-- The exact product is negative just where one factor is negative and the other positive (R152). -/
theorem signalProduct_neg_iff (mid : Nat) (r q : Int) :
    (r - q) * (r - mid) < 0 ↔ r < q ∧ (mid : Int) < r ∨ q < r ∧ r < (mid : Int) := by
  rw [mul_neg_iff]
  omega

/-- The decision by the signs and the absolute values of the two signals (R151). -/
theorem sbrPixel_eq (mid : Nat) (s r q : Int) :
    sbrPixel mid s r q =
      if r < q ∧ (mid : Int) < r ∨ q < r ∧ r < (mid : Int) then s
      else if |r - q| < |r - mid| then s - (r - q)
      else s - (r - mid) := by
  simp only [sbrPixel, signalProduct_neg_iff, Int.abs_eq_natAbs, Int.ofNat_lt, sub_add]

/-- Settles O33: the three clauses are the three branches of the decision. -/
theorem restorerDecidesBySigns : Obligations.RestorerDecidesBySigns := by
  unfold Obligations.RestorerDecidesBySigns
  intro H s r q
  rw [sbrPixel_eq]
  refine ⟨fun hkeep => if_pos hkeep, fun hsigns hlight => ?_, fun hsigns hheavy => ?_⟩
  · rw [if_neg hsigns, if_pos hlight]
  · rw [if_neg hsigns, if_neg hheavy.not_gt]

/-! ### The range of the output (R153) -/

/-- A sample's weight of one half in its 3-tap average keeps the two within half the range of each other (R153). -/
theorem sub_threeTap_range {h H : Nat} {X : Samples} (hX : ∀ y x, 0 ≤ X y x ∧ X y x ≤ 2 * (H : Int) - 1) (y x : Nat) :
    -(H : Int) ≤ X y x - threeTap h X y x ∧ X y x - threeTap h X y x ≤ (H : Int) - 1 := by
  have habove := hX (reflRow ((y : Int) - 1) h) x
  have hself := hX y x
  have hbelow := hX (reflRow ((y : Int) + 1) h) x
  unfold threeTap
  omega

/-- The 3-tap average of samples in 0 .. P is in 0 .. P at every height (R127). -/
theorem threeTap_range {h : Nat} {P : Int} {X : Samples} (hX : ∀ y x, 0 ≤ X y x ∧ X y x ≤ P) (y x : Nat) :
    0 ≤ threeTap h X y x ∧ threeTap h X y x ≤ P := by
  have habove := hX (reflRow ((y : Int) - 1) h) x
  have hself := hX y x
  have hbelow := hX (reflRow ((y : Int) + 1) h) x
  unfold threeTap
  omega

/-- The clamp of the residual does not engage on a difference in -H .. H - 1 (R140, R153). -/
theorem difference_unclamped {H y x : Nat} {X Y : Samples} (hlow : -(H : Int) ≤ X y x - Y y x)
    (hhigh : X y x - Y y x ≤ (H : Int) - 1) : difference H (2 * H - 1) X Y y x = X y x - Y y x + H := by
  unfold difference clamp
  omega

/-- Where the residual is not clamped, the restorer's output lies between the sample and its local mean (R153). -/
theorem restored_between {h mid peak y x : Nat} {X : Samples}
    (hres : difference mid peak X (threeTap h X) y x = X y x - threeTap h X y x + mid) :
    min (X y x) (threeTap h X y x) ≤ restored h mid peak X y x ∧
      restored h mid peak X y x ≤ max (X y x) (threeTap h X y x) := by
  have hbetween := sbrPixel_between mid (X y x) (difference mid peak X (threeTap h X) y x)
    (threeTap h (difference mid peak X (threeTap h X)) y x)
  rwa [show X y x - difference mid peak X (threeTap h X) y x + mid = threeTap h X y x by omega] at hbetween

/-- Settles O34: the residual is not clamped, so the output lies between a sample and its mean, both in 0 .. P. -/
theorem restorerNeedsNoSaturation : Obligations.RestorerNeedsNoSaturation := by
  unfold Obligations.RestorerNeedsNoSaturation
  intro h H X _ hX y x
  obtain ⟨hlow, hhigh⟩ := sub_threeTap_range (h := h) hX y x
  have hres := difference_unclamped hlow hhigh
  have hself := hX y x
  have hmean := threeTap_range (h := h) hX y x
  have hbetween := restored_between hres
  exact ⟨hlow, hhigh, sub_eq_of_eq_add hres, by omega, by omega⟩

end Sys2Proof.Machine

/-! PROOFS of the finalization family: the parts of the blend, its envelope, the blend of agreeing signals and of no
second signal, and the blend branch by branch. -/

namespace Sys2Proof.Machine

/-! ### Truncation (R177) -/

@[simp] theorem f32Trunc_zero : f32Trunc 0 = 0 := Int.zero_tdiv _

theorem f32Trunc_mono : Monotone f32Trunc := fun _ _ h => Int.tdiv_le_tdiv f32One_pos h

/-- Truncation toward zero divides magnitudes. -/
theorem abs_f32Trunc (k : Int) : |f32Trunc k| = |k| / f32One := by
  simp only [f32Trunc, Int.abs_eq_natAbs, Int.natAbs_tdiv, Int.natAbs_natCast]
  rfl

theorem f32Trunc_mul_self_nonneg (k : Int) : 0 ≤ f32Trunc k * k := by
  rcases le_total 0 k with hk | hk
  · exact mul_nonneg (f32Trunc_zero ▸ f32Trunc_mono hk) hk
  · exact mul_nonneg_of_nonpos_of_nonpos (f32Trunc_zero ▸ f32Trunc_mono hk) hk

/-- The integer part of `k` is the one whose magnitude is within one below that of `k`, on the same side of zero. -/
theorem f32Trunc_spec (k : Int) :
    |f32Trunc k| * f32One ≤ |k| ∧ |k| < (|f32Trunc k| + 1) * f32One ∧ 0 ≤ f32Trunc k * k := by
  rw [abs_f32Trunc]
  exact ⟨Int.ediv_mul_le _ f32One_pos.ne', Int.lt_ediv_add_one_mul_self _ f32One_pos, f32Trunc_mul_self_nonneg k⟩

/-- The integer part of a value between zero and an integer is between zero and that integer. -/
theorem f32Trunc_between {d k : Int} (h : min (f32OfInt d) 0 ≤ k ∧ k ≤ max (f32OfInt d) 0) :
    min d 0 ≤ f32Trunc k ∧ f32Trunc k ≤ max d 0 := by
  have hlow := f32Trunc_mono h.1
  have hhigh := f32Trunc_mono h.2
  rw [f32Trunc_mono.map_min, f32Trunc_ofInt, f32Trunc_zero] at hlow
  rw [f32Trunc_mono.map_max, f32Trunc_ofInt, f32Trunc_zero] at hhigh
  exact ⟨hlow, hhigh⟩

/-! ### The addend (R174 to R176) -/

theorem f32OfInt_eq (n : Int) : f32OfInt n = n * 2 ^ 149 := by
  rw [f32OfInt, f32One]
  norm_cast

/-- A product with a zero factor is not rounded (R13). -/
theorem f32Mul_of_mul_eq_zero {a b : Int} (h : a * b = 0) : f32Mul a b = .fin 0 := by
  simpa using f32Mul_exact a b 0 0 (by simpa using h) (by decide) (by decide)

theorem addend_fin (p : Blend) (d1 k : Int) :
    let da := if |f32OfInt d1| < |k| then f32OfInt d1 else k
    p.addend d1 (.fin k) =
      if f32OfInt d1 < 0 ∧ 0 < k ∨ 0 < f32OfInt d1 ∧ k < 0 then f32Mul da p.scl else .fin da := by
  simp only [Blend.addend, signsDisagree, smallerSignal, f32OfInt_pos, f32OfInt_neg, decide_eq_true_eq,
    Int.abs_eq_natAbs, Int.ofNat_lt]

theorem addend_inf (p : Blend) (d1 : Int) (neg : Bool) :
    p.addend d1 (.inf neg) =
      if f32OfInt d1 < 0 ∧ neg = false ∨ 0 < f32OfInt d1 ∧ neg = true then f32Mul (f32OfInt d1) p.scl
      else .fin (f32OfInt d1) := by
  cases neg <;> simp [Blend.addend, signsDisagree, smallerSignal, f32OfInt_pos, f32OfInt_neg]

theorem addend_of_agree (p : Blend) {d1 : Int} {t : F32} (h : signsDisagree d1 t = false) :
    p.addend d1 t = .fin (smallerSignal d1 t) := by
  simp [Blend.addend, h]

/-- Where the signs do not disagree, the smaller signal lies between zero and the first difference (R185). -/
theorem smallerSignal_between {d1 : Int} {t : F32} (h : signsDisagree d1 t = false) :
    min (f32OfInt d1) 0 ≤ smallerSignal d1 t ∧ smallerSignal d1 t ≤ max (f32OfInt d1) 0 := by
  cases t with
  | inf neg => exact ⟨min_le_left _ _, le_max_left _ _⟩
  | fin k =>
    simp only [signsDisagree, ← f32OfInt_neg d1, ← f32OfInt_pos d1, decide_eq_false_iff_not] at h
    unfold smallerSignal
    dsimp only
    split <;> omega

/-- A zero second signal adds nothing (R181). -/
theorem addend_fin_zero (p : Blend) (d1 : Int) : p.addend d1 (.fin 0) = .fin 0 := by
  rw [addend_of_agree p (by simp [signsDisagree])]
  simp [smallerSignal]

/-! ### The second signal (R172, R173) -/

theorem signal_plain {p : Blend} (s b r : Int) (h : p.eclip = false) :
    p.signal s b r = f32Mul (f32OfInt (b - r)) p.sstr := by
  simp [Blend.signal, h]

theorem signal_external {p : Blend} (s b r : Int) (h : p.eclip = true) : p.signal s b r = .fin (f32OfInt (s - r)) := by
  simp [Blend.signal, h]

/-- In plain mode a zero strength or equal references give a zero second signal (R186). -/
theorem signal_plain_eq_zero {p : Blend} (s b r : Int) (h : p.eclip = false) (hz : p.sstr = 0 ∨ b = r) :
    p.signal s b r = .fin 0 := by
  rw [signal_plain s b r h, f32Mul_of_mul_eq_zero]
  rcases hz with hz | rfl
  · rw [hz, mul_zero]
  · simp [f32OfInt]

/-- Equal samples give a zero second signal in both modes (R186). -/
theorem signal_self (p : Blend) (s : Int) : p.signal s s s = .fin 0 := by
  cases h : p.eclip with
  | false => exact signal_plain_eq_zero s s s h (.inr rfl)
  | true => simp [signal_external s s s h, f32OfInt]

/-! ### The envelope (R179, R180, R184) -/

/-- Settles O36: a source sample in 0 .. P orders the two bounds, so the clamp keeps the blend between them. -/
theorem blendStaysInTheEnvelope : Obligations.BlendStaysInTheEnvelope := by
  unfold Obligations.BlendStaysInTheEnvelope
  intro p s b r hs hsP
  obtain ⟨hlo, hhi⟩ : max (s - p.radius) 0 ≤ p.pixel s b r ∧ p.pixel s b r ≤ min (s + p.radius) p.peak :=
    reconstruct_range _ _ _ _ (by omega)
  exact ⟨hlo, hhi, pixel_range p s b r ⟨hs, hsP⟩⟩

/-- A value in 0 .. P is not changed by the envelope of the full radius (R184). -/
theorem clamp_fullRadius {p : Blend} {s v : Int} (hA : p.radius = p.peak) (hs : 0 ≤ s) (hsP : s ≤ p.peak) (hv : 0 ≤ v)
    (hvP : v ≤ p.peak) : clamp v (max (s - p.radius) 0) (min (s + p.radius) p.peak) = v := by
  unfold clamp
  omega

/-! ### Agreeing signals (R185) -/

/-- A second signal of the first difference's sign, finite or not, does not disagree with it (R175). -/
theorem not_signsDisagree_of_sameSign {d1 : Int} {t : F32}
    (h : 0 < d1 ∧ (t = .inf false ∨ ∃ k, 0 < k ∧ t = .fin k) ∨ d1 < 0 ∧ (t = .inf true ∨ ∃ k, k < 0 ∧ t = .fin k)) :
    signsDisagree d1 t = false := by
  obtain ⟨hd, rfl | ⟨k, hk, rfl⟩⟩ | ⟨hd, rfl | ⟨k, hk, rfl⟩⟩ := h <;> simp [signsDisagree] <;> omega

/-- In plain mode signals that do not disagree reconstruct, clamped, a value between the reference and the source. -/
theorem pixel_of_agree {p : Blend} {s b r : Int} (hclip : p.eclip = false)
    (h : signsDisagree (s - b) (p.signal s b r) = false) :
    ∃ v, min b s ≤ v ∧ v ≤ max b s ∧
      p.pixel s b r = clamp v (max (s - p.radius) 0) (min (s + p.radius) p.peak) := by
  obtain ⟨hlow, hhigh⟩ := f32Trunc_between (smallerSignal_between h)
  refine ⟨b + f32Trunc (smallerSignal (s - b) (p.signal s b r)), by omega, by omega, ?_⟩
  simp [Blend.pixel, addend_of_agree p h, reconstruct, hclip]

/-- Settles O38: at the full radius the envelope is 0 .. P and does not engage. -/
theorem agreeingSignalsStayBetween : Obligations.AgreeingSignalsStayBetween := by
  unfold Obligations.AgreeingSignalsStayBetween
  intro p s b r hclip hA hs hsP hb hbP hsign
  obtain ⟨v, hlow, hhigh, hv⟩ := pixel_of_agree hclip (not_signsDisagree_of_sameSign hsign)
  rw [hv, clamp_fullRadius hA hs hsP (by omega) (by omega)]
  exact ⟨hlow, hhigh⟩

/-! ### No second signal (R186) -/

/-- Without a second signal the blend is the base in the envelope (R181). -/
theorem pixel_of_signal_zero {p : Blend} {s b r : Int} (h : p.signal s b r = .fin 0) :
    p.pixel s b r = clamp (if p.eclip then r else b) (max (s - p.radius) 0) (min (s + p.radius) p.peak) := by
  simp [Blend.pixel, h, addend_fin_zero, reconstruct]

/-- Settles O39: in every case the second signal is zero, and the base is s or b. -/
theorem noSignalGivesTheReference : Obligations.NoSignalGivesTheReference := by
  unfold Obligations.NoSignalGivesTheReference
  intro p s b r hs hsP
  refine ⟨?_, fun hclip hz => ?_⟩
  · rintro rfl rfl
    rw [pixel_of_signal_zero (signal_self p s), ite_self, clamp]
    omega
  · have hpixel := pixel_of_signal_zero (signal_plain_eq_zero s b r hclip hz)
    simp only [hclip, Bool.false_eq_true, if_false] at hpixel
    exact ⟨hpixel, fun hA hb hbP => hpixel.trans (clamp_fullRadius hA hs hsP hb hbP)⟩

/-! ### The blend branch by branch (R171 to R180) -/

/-- What a reconstruction is for each kind of addend (R177, R178, R180). -/
theorem reconstruct_spec (base : Int) (add : F32) (lo hi : Int) :
    (∀ k, add = .fin k → ∃ corr : Int,
      |corr| * f32One ≤ |k| ∧ |k| < (|corr| + 1) * f32One ∧ 0 ≤ corr * k ∧
      reconstruct base add lo hi = min (max (base + corr) lo) hi) ∧
    (add = .inf false → reconstruct base add lo hi = hi) ∧ (add = .inf true → reconstruct base add lo hi = lo) := by
  refine ⟨?_, ?_, ?_⟩
  · rintro k rfl
    obtain ⟨hle, hlt, hsign⟩ := f32Trunc_spec k
    exact ⟨f32Trunc k, hle, hlt, hsign, rfl⟩
  · rintro rfl
    rfl
  · rintro rfl
    rfl

/-- Settles O40: the addend of each branch of R174 to R176, reconstructed from the base in the envelope. -/
theorem blendFollowsTheFormula : Obligations.BlendFollowsTheFormula := by
  unfold Obligations.BlendFollowsTheFormula
  intro p s b r one d1 t base lo hi endsWith
  have hone : (f32One : Int) = one := by norm_num [f32One, one]
  have hd1 : f32OfInt (s - b) = d1 := f32OfInt_eq _
  have hsignal : p.signal s b r = t := by simp only [Blend.signal, f32OfInt_eq, t, one]
  have hends : ∀ add, p.addend (s - b) t = add → endsWith add := by
    rintro add rfl
    have hspec := reconstruct_spec base (p.addend (s - b) t) lo hi
    rw [hone, ← hsignal] at hspec
    rwa [← hsignal]
  have hbranch : ∀ (dis : Prop) [Decidable dis] (x y : F32), p.addend (s - b) t = (if dis then x else y) →
      (dis → endsWith x) ∧ (¬dis → endsWith y) := fun dis _ x y h =>
    ⟨fun hdis => hends x (h.trans (if_pos hdis)), fun hdis => hends y (h.trans (if_neg hdis))⟩
  refine ⟨fun k ht => hbranch _ _ _ ?_, fun neg ht => hbranch _ _ _ ?_⟩
  · rw [ht, addend_fin, hd1]
  · rw [ht, addend_inf, hd1]

end Sys2Proof.Machine

/-! PROOFS of the dispatch family: the frame of an accepted START, NOP's end within it, and the START that leaves a
command running. -/

namespace Sys2Proof.Machine

/-- After the copy into the snapshot an accepted START only sets STATUS, which keeps all it must if WDROP stays (R230 to
R232). -/
theorem acceptStart_setStatus_kept {s : State} {st : Status} (h : st.wdrop = s.status.wdrop) :
    StartKept s ((acceptStart s).setStatus st) :=
  ⟨rfl, rfl, rfl, h, rfl, rfl, rfl, rfl, rfl, rfl⟩

/-- NOP on the idle core is its START alone (R206). -/
theorem exec_nop_idle {s : State} (h : s.status.busy = false) : exec .nop s = .next (startNop s) := by
  simp [exec, execNop, h]

/-- The accepted START clears the flags and keeps EFF_VW, and the end sets DONE over that (R206, R241). -/
theorem startNop_status (s : State) :
    (startNop s).status = { s.status with busy := false, done := true, err := false, errcode := 0 } := rfl

/-- Settles O11: the START of NOP signals DONE itself, so IRQ is at the level of IRQ_EN. -/
theorem nopEndsAtOnceWithDone : Obligations.NopEndsAtOnceWithDone := by
  unfold Obligations.NopEndsAtOnceWithDone
  intro s hidle
  exact ⟨startNop s, exec_nop_idle hidle, startNop_status s, acceptStart_erraddr s, signalDone_irq (acceptStart s),
    acceptStart_setStatus_kept rfl⟩

/-- Settles O12: no check fails, so the START sets BUSY and EFF_VW over cleared flags, and clear flags raise no IRQ. -/
theorem validStartSetsBusy : Obligations.ValidStartSetsBusy := by
  unfold Obligations.ValidStartSetsBusy
  rintro op s hop ⟨hidle, hvalid⟩
  have hstart := (exec_idle op s hop hidle).trans (congrArg _ (startCommand_valid op s hvalid))
  exact ⟨_, hstart, rfl, acceptStart_erraddr s, by simp, acceptStart_setStatus_kept rfl⟩

end Sys2Proof.Machine

/-! PROOFS of the exceptions family: the end of a command on an empty plane, the bounded end of a running command, and
the START that copies the registers whether or not a check fails. -/

namespace Sys2Proof.Machine

/-! ### Empty planes (R234) -/

/-- A validated command's planes have the destination's size, so all are empty with it (R233, R234). -/
theorem usedSlots_empty {op : Instr} {s : State} (h : Running op s)
    (he : s.snap.d3.width = 0 ∨ s.snap.d3.height = 0) :
    ∀ k ∈ usedSlots op s.snap, (s.snap.desc k).width = 0 ∨ (s.snap.desc k).height = 0 := by
  intro k hk
  obtain ⟨hwidth, hheight, -, -⟩ := geometry_of_used op s.snap h.geometry k hk
  rwa [hwidth, hheight]

/-- A destination without columns or without rows has no positions. -/
theorem no_position_of_empty {S : CmdRegs} (he : S.d3.width = 0 ∨ S.d3.height = 0) {y x : Nat} (hy : y < S.rows)
    (hx : x < S.cols) : False := by
  rcases he with h | h
  · simp [CmdRegs.cols, h] at hx
  · simp [CmdRegs.rows, h] at hy

theorem accesses_of_empty {S : CmdRegs} (he : S.d3.width = 0 ∨ S.d3.height = 0) (ks : List Slot) :
    accesses ks S = [] := by
  refine List.eq_nil_iff_forall_not_mem.mpr fun a ha => ?_
  obtain ⟨_, -, _, hy, _, hx, -⟩ := (mem_accesses ks S a).mp ha
  exact no_position_of_empty he hy hx

theorem destBytes_of_empty {S : CmdRegs} (he : S.d3.width = 0 ∨ S.d3.height = 0) : destBytes S = [] := by
  refine List.eq_nil_iff_forall_not_mem.mpr fun a ha => ?_
  obtain ⟨_, hy, _, hx, -⟩ := (mem_destBytes S a).mp ha
  exact no_position_of_empty he hy hx

/-- The extent of an empty plane has no byte, so it meets nothing (R66). -/
theorem Desc.extent_meets_of_empty {d : Desc} (h : d.width = 0 ∨ d.height = 0) (u : Nat) (f : Extent) :
    (d.extent u).meets f = false := by
  rw [Desc.extent, if_pos h]
  simp [Extent.meets]

theorem noBusError_of_empty {op : Instr} {s : State} (he : s.snap.d3.width = 0 ∨ s.snap.d3.height = 0) :
    NoBusError op s := fun _ _ _ hy _ hx _ _ => (no_position_of_empty he hy hx).elim

theorem awayFromWindow_of_empty {op : Instr} {s : State} (h : Running op s)
    (he : s.snap.d3.width = 0 ∨ s.snap.d3.height = 0) : AwayFromWindow op s := fun k hk =>
  Desc.extent_meets_of_empty (usedSlots_empty h he k hk) _ _

/-- Every way a running command ends writes destination bytes only, so without any it leaves memory as it is (R69). -/
theorem finishCommand_mem_of_noDest {op : Instr} {k : Kernel} {s t : State} (h : finishCommand op k s = .next t)
    (hd : destBytes s.snap = []) : t.mem = s.mem := by
  have hfree : freeDest s.snap s.draws s.mem = s.mem := by simp [freeDest, hd]
  have hwrites (Y : Plane) : destWrites s.snap Y = [] := List.map_eq_nil_iff.mp ((destWrites_fst s.snap Y).trans hd)
  obtain ⟨-, hf⟩ | ⟨-, ⟨-, hf⟩ | ⟨-, ⟨e, es, -, hf⟩ | ⟨-, ⟨-, hf⟩ | ⟨-, hf⟩⟩⟩⟩ := finishCommand_cases op k s <;>
    cases hf.symm.trans h
  · exact hfree
  · exact hfree
  · exact hfree
  · rw [endNormally_mem, hwrites, Mem.writeAll_nil]

/-- Settles O22: an empty plane has no position to access, so neither a bus error nor the register window can come in
between, and every end leaves memory as it is. -/
theorem emptyPlaneEndsWithDone : Obligations.EmptyPlaneEndsWithDone := by
  unfold Obligations.EmptyPlaneEndsWithDone
  intro op s hop hr he
  refine ⟨usedSlots_empty hr he, accesses_of_empty he _, ?_⟩
  obtain ⟨k, hk⟩ := exec_busy op s hop hr.1
  obtain ⟨t, ht, hdone⟩ :=
    finishCommand_ended (k := k) hr.geometry (awayFromWindow_of_empty hr he) (noBusError_of_empty he)
  exact ⟨t, hk.trans ht, hdone, finishCommand_mem_of_noDest ht (destBytes_of_empty he)⟩

/-! ### The host's turn while a command runs (R76, R280) -/

/-- What a host operation may lead to while a command runs: a settled state with the given turns still listed, or the
stop of an access past the last address (log entry 11); it starts no command. -/
def Action.StartsNothing (turns : List Agent) : Action → Prop
  | .settle t => t.turns = turns
  | .stop f => f = .outsideHostMemory
  | .run _ _ => False

@[simp] theorem Action.startsNothing_settle (turns : List Agent) (t : State) :
    (Action.settle t).StartsNothing turns ↔ t.turns = turns := Iff.rfl
@[simp] theorem Action.startsNothing_stop (turns : List Agent) (f : Fault) :
    (Action.stop f).StartsNothing turns ↔ f = .outsideHostMemory := Iff.rfl

/-- A step whose action starts nothing settles on that action's state or stops with its fault. -/
theorem Action.StartsNothing.step_cases {s : State} {turns : List Agent} (h : (nextAction s).StartsNothing turns) :
    step s = .fault .outsideHostMemory ∨ ∃ t, step s = .next t ∧ t.turns = turns := by
  unfold step
  cases ha : nextAction s with
  | settle t => exact .inr ⟨t, rfl, by simpa [ha] using h⟩
  | stop f => exact .inl (congrArg _ (by simpa [ha] using h))
  | run i u => rw [ha] at h; exact h.elim

@[simp] theorem hostWriteByte_turns (a : Nat) (v : Byte) (s : State) : (hostWriteByte a v s).turns = s.turns := by
  unfold hostWriteByte
  split <;> rfl

/-- While BUSY a CTRL write resets the core or drops its START (R230, R271). -/
theorem writeCtrl_startsNothing {s : State} (hb : s.status.busy = true) (v : Word) :
    (writeCtrl v s).StartsNothing s.turns := by
  unfold writeCtrl
  dsimp only
  split
  · rfl
  · split
    · rw [portStart_busy (s := s.setIrqEn v[2]) hb]
      rfl
    · rfl

theorem regWrite_startsNothing {s : State} (hb : s.status.busy = true) (r : Reg) (v : Word) :
    (regWrite r v s).StartsNothing s.turns := by
  cases r with
  | ctrl => exact writeCtrl_startsNothing hb v
  | _ => simp [regWrite, writeSetup_busy _ s hb]

theorem portWrite_startsNothing {s : State} (hb : s.status.busy = true) (off : BitVec 12) (size : Nat) (v : Word) :
    (portWrite off size v s).StartsNothing s.turns := by
  unfold portWrite
  split
  · rfl
  · split
    · exact regWrite_startsNothing hb _ v
    · rfl

theorem hostOp_startsNothing {s : State} (hb : s.status.busy = true) (op : HostOp) :
    (hostOp op s).StartsNothing s.turns := by
  cases op with
  | regWrite off size v => exact portWrite_startsNothing hb off size v
  | poll off mask val => simp only [hostOp]; split <;> rfl
  | memW16 a v => simp only [hostOp]; split <;> simp
  | memR16 a => simp only [hostOp]; split <;> simp
  | _ => simp [hostOp]

/-- On the host's turn a step of a BUSY core takes that turn off the list and runs no command. -/
theorem hostTurn_startsNothing {s : State} (hb : s.status.busy = true) (hm : mover s = .host) :
    (nextAction s).StartsNothing s.turns.tail := by
  cases hh : s.host with
  | nil => simp [nextAction, hm, hostMove, hh]
  | cons op rest =>
    rw [nextAction_host hm hh]
    exact hostOp_startsNothing (s := { s with turns := s.turns.tail, host := rest }) hb op

/-! ### The bounded end of a running command (R241, R290) -/

/-- After n steps no command is running any more, or a host access past the last address has stopped the run. -/
def EndsAfter (n : Nat) (s : State) : Prop :=
  Host.Core.run Sys2Proof.core n s = .fault Fault.outsideHostMemory ∨
    ∃ t : State, Host.Core.run Sys2Proof.core n s = .next t ∧ t.status.busy = false

theorem endsAfter_zero {s : State} (h : s.status.busy = false) : EndsAfter 0 s := .inr ⟨s, rfl, h⟩

theorem run_succ_of_next {M : Host.Core} {s t : M.State} (h : M.step s = .next t) (n : Nat) :
    M.run (n + 1) s = M.run n t := by
  simp [Host.Core.run, h]

theorem run_succ_of_fault {M : Host.Core} {s : M.State} {f : M.Fault} (h : M.step s = .fault f) (n : Nat) :
    M.run (n + 1) s = .fault f := by
  simp [Host.Core.run, h]

theorem EndsAfter.succ {s t : State} {n : Nat} (h : EndsAfter n t) (hs : step s = .next t) : EndsAfter (n + 1) s := by
  rwa [EndsAfter, run_succ_of_next (M := Sys2Proof.core) hs n]

theorem endsAfter_one_of_fault {s : State} (h : step s = .fault .outsideHostMemory) : EndsAfter 1 s :=
  .inl (run_succ_of_fault (M := Sys2Proof.core) h 0)

/-- The core's turn ends the command in that one step. -/
theorem endsAfter_one_of_coreTurn {s : State} (h : s.Inv) (hb : s.status.busy = true) (hm : mover s = .core) :
    EndsAfter 1 s := by
  obtain ⟨t, hs, hidle, -, -⟩ := coreTurnEndsTheCommand s h hb hm
  exact (endsAfter_zero hidle).succ hs

/-- Every listed turn is either the core's, which ends the command, or the host's, which leaves one turn fewer; with no
turn left a BUSY core moves. -/
theorem exists_endsAfter (turns : List Agent) {s : State} (h : s.Inv) (hb : s.status.busy = true)
    (ht : s.turns = turns) : ∃ n ≤ turns.length + 1, EndsAfter n s := by
  induction turns generalizing s with
  | nil => exact ⟨1, by simp, endsAfter_one_of_coreTurn h hb (by simp [mover, ht, hb])⟩
  | cons a rest ih =>
    cases a with
    | core => exact ⟨1, by simp, endsAfter_one_of_coreTurn h hb (by simp [mover, ht])⟩
    | host =>
      rcases (hostTurn_startsNothing hb (by simp [mover, ht])).step_cases with hf | ⟨t, hs, htail⟩
      · exact ⟨1, by simp, endsAfter_one_of_fault hf⟩
      · cases hbt : t.status.busy with
        | false => exact ⟨1, by simp, (endsAfter_zero hbt).succ hs⟩
        | true =>
          obtain ⟨n, hn, hend⟩ := ih (everyStepKeepsTheInvariant s t h hs) hbt (by rw [htail, ht, List.tail_cons])
          exact ⟨n + 1, by simpa using hn, hend.succ hs⟩

/-- Settles O60, by induction on the listed turns. -/
theorem commandEndsInBoundedSteps : Obligations.CommandEndsInBoundedSteps := by
  unfold Obligations.CommandEndsInBoundedSteps
  intro s h hb
  exact exists_endsAfter s.turns h hb rfl

/-! ### START, with and without a failing check (R231, R232) -/

/-- The accepted START of a command copies the registers, and whichever way its validation goes it only sets STATUS after
that (R231, R232). -/
theorem startCommand_copies (op : Instr) (s : State) :
    (startCommand op s).snap = s.regs ∧ StartKept s (startCommand op s) := by
  cases h : validate s.build op s.regs with
  | none =>
    rw [startCommand_valid op s h]
    exact ⟨rfl, acceptStart_setStatus_kept rfl⟩
  | some c =>
    rw [startCommand_invalid op s c h]
    exact ⟨rfl, acceptStart_setStatus_kept rfl⟩

/-- Settles O10: NOP and the other commands start by the same copy. -/
theorem startCopiesRegistersIntoTheSnapshot : Obligations.StartCopiesRegistersIntoTheSnapshot := by
  unfold Obligations.StartCopiesRegistersIntoTheSnapshot
  intro i s hidle
  by_cases hi : i = .nop
  · subst hi
    exact ⟨startNop s, exec_nop_idle hidle, acceptStart_snap s, acceptStart_setStatus_kept rfl⟩
  · exact ⟨startCommand i s, exec_idle i s hi hidle, startCommand_copies i s⟩

/-- Settles O13: the failing check enters its code over cleared flags, and ERR puts IRQ at the level of IRQ_EN. -/
theorem failedStartReportsItsCode : Obligations.FailedStartReportsItsCode := by
  unfold Obligations.FailedStartReportsItsCode
  intro op s c hop hidle hcheck
  have hstart := (exec_idle op s hop hidle).trans (congrArg _ (startCommand_invalid op s c hcheck))
  refine ⟨_, hstart, ?_, acceptStart_erraddr s, raiseError_irq c (acceptStart s), acceptStart_setStatus_kept rfl⟩
  simp [Status.started, hidle]

end Sys2Proof.Machine

/-! PROOFS of the reset and hazard family: the register writes of R280's table row by row, and the soft reset beside the
reset input. -/

namespace Sys2Proof.Machine

/-! ### CTRL writes (R24, R271) -/

theorem portWrite_ctrl {s : State} (v : Word) (hrst : s.rst = false) : portWrite 0x00C 4 v s = writeCtrl v s :=
  portWrite_accepted _ v s hrst rfl

/-- SRST alone counts when it is set: the rest of the value is ignored (R271). -/
theorem writeCtrl_softReset {v : Word} (s : State) (hsrst : v[1] = true) : writeCtrl v s = .settle (resetCore s) := by
  simp [writeCtrl, hsrst]

theorem writeCtrl_irqEn {v : Word} (s : State) (hsrst : v[1] = false) (hstart : v[0] = false) :
    writeCtrl v s = .settle (s.setIrqEn v[2]) := by
  simp [writeCtrl, hsrst, hstart]

/-- Asserting RST, when it was released, and releasing it again leaves the reset state (R270). -/
theorem driveReset_release_assert {s : State} (hrst : s.rst = false) :
    driveReset false (driveReset true s) = resetCore s := by
  rw [← resetCore_rst] at hrst
  rw [driveReset_assert, driveReset_release, ← hrst]

/-- Settles O49: the soft reset is `resetCore`, which the reset input leaves once it is released. -/
theorem softResetIsAFullReset : Obligations.SoftResetIsAFullReset := by
  unfold Obligations.SoftResetIsAFullReset
  intro s v hrst hsrst
  refine ⟨resetCore s, driveReset true s, (portWrite_ctrl v hrst).trans (writeCtrl_softReset s hsrst), rfl,
    congrArg Action.settle (driveReset_release_assert hrst), rfl, rfl, rfl, rfl, rfl, rfl, fun hidle => ?_,
    resetCore_onlyDestCells s⟩
  rw [resetCore_mem, hidle]
  rfl

/-! ### The table of register writes (R280) -/

/-- A write of a setup register while a command runs is dropped (R280). -/
theorem regWrite_setup_busy {r : Reg} {s : State} (hr : r.isSetup) (hb : s.status.busy = true) (v : Word) :
    regWrite r v s = .settle s.dropWrite := by
  cases r with
  | cmd | cfg | amnt | sstr | scl | desc => exact congrArg Action.settle (writeSetup_busy _ s hb)
  | id | caps | maxdim | ctrl | status | erraddr | reserved => exact hr.elim

/-- Writes of the read-only registers and of the reserved offsets change nothing (R21 to R23, R31, R32). -/
theorem regWrite_ignored {off : Nat} (ha : off % 4 = 0)
    (ho : off ≤ 0x008 ∨ 0x028 ≤ off ∧ off ≤ 0x03C ∨ 0x080 ≤ off) (v : Word) (s : State) :
    regWrite (regAt off) v s = .settle s := by
  by_cases hres : 0x028 < off ∧ off < 0x040 ∨ 0x080 ≤ off
  · rw [regAt_reserved off hres]
    rfl
  · obtain rfl | rfl | rfl | rfl : off = 0x000 ∨ off = 0x004 ∨ off = 0x008 ∨ off = 0x028 := by omega
    all_goals rfl

/-- Settles O46, a case for each row of the table. -/
theorem registerWritesFollowTheTable : Obligations.RegisterWritesFollowTheTable := by
  unfold Obligations.RegisterWritesFollowTheTable
  intro s off v hrst ha
  refine ⟨fun ho hb => ?setup, ?softReset, ?start, ?irqEn, ?status, fun ho => ?ignored⟩
  case setup =>
    exact (portWrite_accepted off v s hrst ha).trans (regWrite_setup_busy (regAt_isSetup _ ha ho) hb v)
  case softReset =>
    rintro rfl hsrst
    exact (portWrite_ctrl v hrst).trans (writeCtrl_softReset s hsrst)
  case start =>
    rintro rfl hsrst hstart hb
    exact (portWrite_start hrst hstart hsrst).trans (portStart_busy (s := s.setIrqEn v[2]) hb)
  case irqEn =>
    rintro rfl hsrst hstart
    exact (portWrite_ctrl v hrst).trans (writeCtrl_irqEn s hsrst hstart)
  case status =>
    rintro rfl
    exact portWrite_accepted _ v s hrst ha
  case ignored =>
    exact (portWrite_accepted off v s hrst ha).trans (regWrite_ignored ha ho v s)

end Sys2Proof.Machine
